-- ==== Sys2Proof/Word.lean ====
section
/-! DEFINITION. The word types of the block (spec 00_scope.md R8, R10, R14): bytes of the image, the 16-bit raw
word, the field widths of the decoded instruction, and lines of text as finite sequences of characters. -/

namespace Sys2Proof

/-- One byte of the image (10_state.md R26). -/
abbrev Byte := BitVec 8

/-- The raw word, `WORD_BITS = 16` (00_scope.md R8). -/
abbrev Word := BitVec 16

/-- A 4-bit field: `opcode_class`, `x`, `y` or `n` (30_encoding.md R61). -/
abbrev Nibble := BitVec 4

/-- The 12-bit field `nnn` (30_encoding.md R61). It is an immediate and never an address of the block (R34). -/
abbrev Imm12 := BitVec 12

/-- A string of the spec: a finite sequence of characters (00_scope.md R14). -/
abbrev Line := List Char

end Sys2Proof
end

