-- ==== Sys2Proof/Config.lean ====
section
/-! DEFINITION. The fixed parameters of the block that the definitions use (spec 00_scope.md R8; none is
configurable) and its one free value. The other parameters of R8 are widths of the types of Word.lean
(`WORD_BITS`), the shapes of the formatting primitives (`IMM8_DIGITS`, `IMM12_DIGITS`, `N_DIGITS`, `HEX_CASE`,
`REG_RADIX`) or counts of the opcode ROM (`N_CLASSES`, `N_OPCODES`, `N_REGS`). -/

namespace Sys2Proof.Config

/-- `BYTES_PER_WORD`: how far the word cursor moves for one word (00_scope.md R8, 10_state.md R24). -/
def bytesPerWord : Nat := 2

/-- `NAME_FIELD`: the width of the name column (00_scope.md R8, 41_render_format.md R101). -/
def nameField : Nat := 6

/-- `MAX_LINE`: the longest line (00_scope.md R8, 41_render_format.md R115); also the number of `line_char`
entries of U2's port (R100). -/
def maxLine : Nat := 19

/-- `UNMAPPED`: the placeholder text (00_scope.md R8, 30_encoding.md R73). -/
def unmappedText : Line := "??".toList

/-- FREE VALUE (log entry 6). What U2's port `line_char` carries, for the word `w`, at an index at or beyond
`line_len`: "entries at index `line_len` and above carry no meaning and must not be read" (41_render_format.md
R100; 93_implementation_defined.md U7, "any value"). It has no body: nothing can be proved of its values. -/
opaque freeLineChar (w : Word) (k : Nat) : Byte

end Sys2Proof.Config
end

