-- ==== Sys2Proof/Machine/Operands.lean ====
section
/-! DEFINITION. The formatting primitives of U2: every operand form of a line (spec 41_render_format.md R101 to
R109). -/

namespace Sys2Proof.Machine

/-- The name, left-justified in the name column (R101). -/
def pad6 (name : Line) : Line := name ++ List.replicate (Config.nameField - name.length) ' '

/-- The uppercase hexadecimal digit of a 4-bit value (R102). -/
def hexdigit (d : Nibble) : Char :=
  #v['0', '1', '2', '3', '4', '5', '6', '7', '8', '9', 'A', 'B', 'C', 'D', 'E', 'F'][d.toFin]

/-- The decimal numeral of a register index, without leading zero (R103). -/
def dec (i : Nibble) : Line := if i ≤ 9#4 then [hexdigit i] else ['1', hexdigit (i - 10#4)]

/-- A register operand: `V` and the decimal index (R104; 90_conflicts.md C2). -/
def regdec (i : Nibble) : Line := 'V' :: dec i

/-- The register operand of `RND` alone: `V` and one hexadecimal digit (R105; uppercase by decision D6). -/
def reghex (i : Nibble) : Line := ['V', hexdigit i]

/-- An 8-bit immediate: `#` and two digits (R106). -/
def imm8 (v : Byte) : Line := ['#', hexdigit (v.extractLsb' 4 4), hexdigit (v.extractLsb' 0 4)]

/-- A 12-bit immediate: `#` and four digits, the first of them `0` (R107; 90_conflicts.md C1). -/
def imm12 (v : Imm12) : Line :=
  ['#', '0', hexdigit (v.extractLsb' 8 4), hexdigit (v.extractLsb' 4 4), hexdigit (v.extractLsb' 0 4)]

/-- The immediate of `DRW` alone: a 4-bit value in two digits, `imm8(zext_8(v))` (R108). -/
def imm4as8 (v : Nibble) : Line := imm8 (v.zeroExtend 8)

/-- Between two operands: a comma, then one space (R109). -/
def separator : Line := [',', ' ']

/-- The opening brace, code 0x7B (R109, R112). -/
def openBrace : Char := Char.ofNat 0x7B

/-- The closing brace, code 0x7D (R109, R112). -/
def closeBrace : Char := Char.ofNat 0x7D

/-- The second operand of `SHR` and `SHL`, wrapped in literal braces (R109; 30_encoding.md R78). -/
def bracedReg (y : Nibble) : Line := openBrace :: separator ++ regdec y ++ [closeBrace]

/-- A line with operands: the padded name, then the operand text (R110; 30_encoding.md R77). -/
def lineWith (name operands : Line) : Line := pad6 name ++ operands

/-- The operand text `Vx, #kk` (formats XKK but `RND`; R72). -/
def regImm8 (x : Nibble) (kk : Byte) : Line := regdec x ++ separator ++ imm8 kk

/-- The operand text `Vx, Vy` (formats XY and XYS; R72). -/
def regReg (x y : Nibble) : Line := regdec x ++ separator ++ regdec y

/-- The operand text `Vx{, Vy}` of `SHR` and `SHL`; the braces are literal (R109; 30_encoding.md R78). -/
def regBracedReg (x y : Nibble) : Line := regdec x ++ bracedReg y

/-- The operand text of a literal and a register, the literal first (R72, mid 28 to 33). -/
def literalReg (literal : Line) (x : Nibble) : Line := literal ++ separator ++ regdec x

/-- The operand text of a register and a literal, the register first (R72, mid 26, 27, 34). -/
def regLiteral (x : Nibble) (literal : Line) : Line := regdec x ++ separator ++ literal

/-- The operand text of a literal and a 12-bit immediate (R72, mid 20 and 21). -/
def literalImm12 (literal : Line) (nnn : Imm12) : Line := literal ++ separator ++ imm12 nnn

end Sys2Proof.Machine
end

