-- ==== Sys2Proof/Syntax.lean ====
section
/-! DEFINITION. The instructions: one constructor per row of the opcode ROM (spec 30_encoding.md R72,
opcode_table.json), in `mid` order, with the operand fields its encoding holds. -/

namespace Sys2Proof

/-- The 36 rows of the opcode ROM. A row's operands are the fields of its format (R62). The classes 0x5 and 0x9
carry the ignored nibble `n` too, and the fall-through row carries the whole word, so that no bit of a word is
lost by decoding. -/
inductive Instr where
  /-- mid 0, `CLS` (R120). -/
  | cls
  /-- mid 1, `RET` (R121). -/
  | ret
  /-- mid 2, `SYS #nnn` (R122): class 0x0, other than CLS and RET. -/
  | sys (nnn : Imm12)
  /-- mid 3, `JP #nnn` (R123). -/
  | jp (nnn : Imm12)
  /-- mid 4, `CALL #nnn` (R124). -/
  | call (nnn : Imm12)
  /-- mid 5, `SE Vx, #kk` (R125). -/
  | seImm (x : Nibble) (kk : Byte)
  /-- mid 6, `SNE Vx, #kk` (R126). -/
  | sneImm (x : Nibble) (kk : Byte)
  /-- mid 7, `SNE Vx, Vy` of class 0x5 (R127, the first quirk); `n` is ignored (R74). -/
  | sneReg5 (x y n : Nibble)
  /-- mid 8, `LD Vx, #kk` (R128). -/
  | ldImm (x : Nibble) (kk : Byte)
  /-- mid 9, `ADD Vx, #kk` (R129). -/
  | addImm (x : Nibble) (kk : Byte)
  /-- mid 10, `LD Vx, Vy` (R140). -/
  | ldReg (x y : Nibble)
  /-- mid 11, `OR Vx, Vy` (R141). -/
  | orReg (x y : Nibble)
  /-- mid 12, `AND Vx, Vy` (R142). -/
  | andReg (x y : Nibble)
  /-- mid 13, `XOR Vx, Vy` (R143). -/
  | xorReg (x y : Nibble)
  /-- mid 14, `ADD Vx, Vy` (R144). -/
  | addReg (x y : Nibble)
  /-- mid 15, `SUB Vx, Vy` (R145). -/
  | subReg (x y : Nibble)
  /-- mid 16, `SHR Vx{, Vy}` (R146). -/
  | shr (x y : Nibble)
  /-- mid 17, `SUBN Vx, Vy` (R147). -/
  | subn (x y : Nibble)
  /-- mid 18, `SHL Vx{, Vy}` (R148). -/
  | shl (x y : Nibble)
  /-- mid 19, `SNE Vx, Vy` of class 0x9 (R160); `n` is ignored (R74). -/
  | sneReg9 (x y n : Nibble)
  /-- mid 20, `LD I, #nnn` (R161). -/
  | ldI (nnn : Imm12)
  /-- mid 21, `JP V0, #nnn` (R162); `V0` is literal text. -/
  | jpV0 (nnn : Imm12)
  /-- mid 22, `RND Vx, #kk` (R163, the second quirk). -/
  | rnd (x : Nibble) (kk : Byte)
  /-- mid 23, `DRW Vx, Vy, #n` (R164). -/
  | drw (x y n : Nibble)
  /-- mid 24, `SKP Vx` (R170). -/
  | skp (x : Nibble)
  /-- mid 25, `SKNP Vx` (R171). -/
  | sknp (x : Nibble)
  /-- mid 26, `LD Vx, DT` (R173). -/
  | ldXDt (x : Nibble)
  /-- mid 27, `LD Vx, K` (R174). -/
  | ldXK (x : Nibble)
  /-- mid 28, `LD DT, Vx` (R175). -/
  | ldDtX (x : Nibble)
  /-- mid 29, `LD ST, Vx` (R176). -/
  | ldStX (x : Nibble)
  /-- mid 30, `ADD I, Vx` (R177). -/
  | addIX (x : Nibble)
  /-- mid 31, `LD F, Vx` (R178). -/
  | ldFX (x : Nibble)
  /-- mid 32, `LD B, Vx` (R179). -/
  | ldBX (x : Nibble)
  /-- mid 33, `LD [I], Vx` (R180). -/
  | ldIindX (x : Nibble)
  /-- mid 34, `LD Vx, [I]` (R181). -/
  | ldXIind (x : Nibble)
  /-- mid 35, the fall-through row, `??` (R73, R149, R172, R182), with the word that has no mapped row. -/
  | unmapped (w : Word)
  deriving DecidableEq, Repr

end Sys2Proof
end

