-- ==== Sys2Proof/WellFormed.lean ====
section
/-! DEFINITION. Which terms of `Instr` stand for a word: the checks that the types of the operands do not make.
SYS excludes the two words of CLS and RET (spec 30_encoding.md R66, R71), and the fall-through row holds only
words that no mapped row takes (R73). -/

namespace Sys2Proof

/-- The values of `n` that class 0x8 maps (30_encoding.md R72, mid 10 to 18). -/
def mappedClass8 : List Nibble := [0x0, 0x1, 0x2, 0x3, 0x4, 0x5, 0x6, 0x7, 0xE]

/-- The values of `low_byte` that class 0xE maps (R72, mid 24 and 25). -/
def mappedClassE : List Byte := [0x9E, 0xA1]

/-- The values of `low_byte` that class 0xF maps (R72, mid 26 to 34). -/
def mappedClassF : List Byte := [0x07, 0x0A, 0x15, 0x18, 0x1E, 0x29, 0x33, 0x55, 0x65]

/-- The word belongs to one of the three unmapped sets of 30_encoding.md R73. -/
def isUnmapped (w : Word) : Bool :=
  (w.extractLsb' 12 4 == 0x8 && !mappedClass8.contains (w.extractLsb' 0 4)) ||
  (w.extractLsb' 12 4 == 0xE && !mappedClassE.contains (w.extractLsb' 0 8)) ||
  (w.extractLsb' 12 4 == 0xF && !mappedClassF.contains (w.extractLsb' 0 8))

/-- A term of `Instr` that some word decodes to. -/
def Instr.wf : Instr → Bool
  | .sys nnn => nnn != 0x0E0 && nnn != 0x0EE
  | .unmapped w => isUnmapped w
  | .cls | .ret | .jp _ | .call _ | .seImm _ _ | .sneImm _ _ | .sneReg5 _ _ _ | .ldImm _ _ | .addImm _ _
  | .ldReg _ _ | .orReg _ _ | .andReg _ _ | .xorReg _ _ | .addReg _ _ | .subReg _ _ | .shr _ _ | .subn _ _
  | .shl _ _ | .sneReg9 _ _ _ | .ldI _ | .jpV0 _ | .rnd _ _ | .drw _ _ _ | .skp _ | .sknp _ | .ldXDt _
  | .ldXK _ | .ldDtX _ | .ldStX _ | .addIX _ | .ldFX _ | .ldBX _ | .ldIindX _ | .ldXIind _ => true

end Sys2Proof
end

