-- ==== Sys2Proof/Decode.lean ====
section
/-! DEFINITION. U1, the bit-field extractor (spec 40_field_extractor.md), the selection of the opcode ROM's row
(30_encoding.md R65, R66, R70) as an instruction, decoding from bytes (20_memory.md R41), and the encoder
(30_encoding.md R62, R72). -/

namespace Sys2Proof

/-- The decoded instruction, or field-set: seven views of the same 16 bits (10_state.md R23). -/
structure Fields where
  opcodeClass : Nibble
  x : Nibble
  y : Nibble
  n : Nibble
  kk : Byte
  nnn : Imm12
  lowByte : Byte
  deriving DecidableEq, Repr

/-- `decode(word)` of U1 (R98), the fields by R91 to R97. -/
def fields (w : Word) : Fields where
  opcodeClass := w.extractLsb' 12 4
  x := w.extractLsb' 8 4
  y := w.extractLsb' 4 4
  n := w.extractLsb' 0 4
  kk := w.extractLsb' 0 8
  nnn := w.extractLsb' 0 12
  lowByte := w.extractLsb' 0 8

/-- `word == opcode_class ++ nnn` (R99): the word that a field-set of U1 came from. -/
def Fields.word (f : Fields) : Word := f.opcodeClass ++ f.nnn

/-- Second level of class 0x0: the whole word, tested on `nnn` (R66, R99). -/
def selectClass0 (f : Fields) : Instr :=
  match f.nnn with
  | 0x0E0#12 => .cls
  | 0x0EE#12 => .ret
  | nnn => .sys nnn

/-- Second level of class 0x8: the low nibble `n` alone (R66; 90_conflicts.md C3). -/
def selectClass8 (f : Fields) : Instr :=
  match f.n with
  | 0x0#4 => .ldReg f.x f.y
  | 0x1#4 => .orReg f.x f.y
  | 0x2#4 => .andReg f.x f.y
  | 0x3#4 => .xorReg f.x f.y
  | 0x4#4 => .addReg f.x f.y
  | 0x5#4 => .subReg f.x f.y
  | 0x6#4 => .shr f.x f.y
  | 0x7#4 => .subn f.x f.y
  | 0xE#4 => .shl f.x f.y
  | _ => .unmapped f.word

/-- Second level of class 0xE: `low_byte` (R66). -/
def selectClassE (f : Fields) : Instr :=
  match f.lowByte with
  | 0x9E#8 => .skp f.x
  | 0xA1#8 => .sknp f.x
  | _ => .unmapped f.word

/-- Second level of class 0xF: `low_byte` (R66). -/
def selectClassF (f : Fields) : Instr :=
  match f.lowByte with
  | 0x07#8 => .ldXDt f.x
  | 0x0A#8 => .ldXK f.x
  | 0x15#8 => .ldDtX f.x
  | 0x18#8 => .ldStX f.x
  | 0x1E#8 => .addIX f.x
  | 0x29#8 => .ldFX f.x
  | 0x33#8 => .ldBX f.x
  | 0x55#8 => .ldIindX f.x
  | 0x65#8 => .ldXIind f.x
  | _ => .unmapped f.word

/-- The row that U2 selects for a field-set, with its operands: first level, `opcode_class` (R65, R70). The last
arm is class 0xF. -/
def select (f : Fields) : Instr :=
  match f.opcodeClass with
  | 0x0#4 => selectClass0 f
  | 0x1#4 => .jp f.nnn
  | 0x2#4 => .call f.nnn
  | 0x3#4 => .seImm f.x f.kk
  | 0x4#4 => .sneImm f.x f.kk
  | 0x5#4 => .sneReg5 f.x f.y f.n
  | 0x6#4 => .ldImm f.x f.kk
  | 0x7#4 => .addImm f.x f.kk
  | 0x8#4 => selectClass8 f
  | 0x9#4 => .sneReg9 f.x f.y f.n
  | 0xA#4 => .ldI f.nnn
  | 0xB#4 => .jpV0 f.nnn
  | 0xC#4 => .rnd f.x f.kk
  | 0xD#4 => .drw f.x f.y f.n
  | 0xE#4 => selectClassE f
  | _ => selectClassF f

/-- The instruction of a raw word. Total: every word has a row, the fall-through row among them (R70, R73). -/
def decodeWord (w : Word) : Instr := select (fields w)

/-- A raw word from its two bytes, the byte at the lower offset in the high bits (20_memory.md R41). -/
def wordOfBytes (hi lo : Byte) : Word := hi ++ lo

/-- Why a byte sequence holds no instruction at its head. -/
inductive DecodeError where
  /-- There is no byte. -/
  | noByte
  /-- There is one byte with no partner: it is never padded, dropped or read as a word (20_memory.md R45). -/
  | danglingByte
  deriving DecidableEq, Repr

/-- The instruction at the head of a byte sequence, and the bytes after it (R41, R60). No two bytes are refused:
"there is no rejection at this stage" (R98). -/
def decodeBytes : List Byte → Except DecodeError (Instr × List Byte)
  | [] => .error .noByte
  | [_] => .error .danglingByte
  | hi :: lo :: rest => .ok (decodeWord (wordOfBytes hi lo), rest)

/-- The word of an instruction, by the encodings of 30_encoding.md R62 and R72. -/
def encode : Instr → Word
  | .cls => 0x00E0#16
  | .ret => 0x00EE#16
  | .sys nnn => 0x0#4 ++ nnn
  | .jp nnn => 0x1#4 ++ nnn
  | .call nnn => 0x2#4 ++ nnn
  | .seImm x kk => 0x3#4 ++ x ++ kk
  | .sneImm x kk => 0x4#4 ++ x ++ kk
  | .sneReg5 x y n => 0x5#4 ++ x ++ y ++ n
  | .ldImm x kk => 0x6#4 ++ x ++ kk
  | .addImm x kk => 0x7#4 ++ x ++ kk
  | .ldReg x y => 0x8#4 ++ x ++ y ++ 0x0#4
  | .orReg x y => 0x8#4 ++ x ++ y ++ 0x1#4
  | .andReg x y => 0x8#4 ++ x ++ y ++ 0x2#4
  | .xorReg x y => 0x8#4 ++ x ++ y ++ 0x3#4
  | .addReg x y => 0x8#4 ++ x ++ y ++ 0x4#4
  | .subReg x y => 0x8#4 ++ x ++ y ++ 0x5#4
  | .shr x y => 0x8#4 ++ x ++ y ++ 0x6#4
  | .subn x y => 0x8#4 ++ x ++ y ++ 0x7#4
  | .shl x y => 0x8#4 ++ x ++ y ++ 0xE#4
  | .sneReg9 x y n => 0x9#4 ++ x ++ y ++ n
  | .ldI nnn => 0xA#4 ++ nnn
  | .jpV0 nnn => 0xB#4 ++ nnn
  | .rnd x kk => 0xC#4 ++ x ++ kk
  | .drw x y n => 0xD#4 ++ x ++ y ++ n
  | .skp x => 0xE#4 ++ x ++ 0x9E#8
  | .sknp x => 0xE#4 ++ x ++ 0xA1#8
  | .ldXDt x => 0xF#4 ++ x ++ 0x07#8
  | .ldXK x => 0xF#4 ++ x ++ 0x0A#8
  | .ldDtX x => 0xF#4 ++ x ++ 0x15#8
  | .ldStX x => 0xF#4 ++ x ++ 0x18#8
  | .addIX x => 0xF#4 ++ x ++ 0x1E#8
  | .ldFX x => 0xF#4 ++ x ++ 0x29#8
  | .ldBX x => 0xF#4 ++ x ++ 0x33#8
  | .ldIindX x => 0xF#4 ++ x ++ 0x55#8
  | .ldXIind x => 0xF#4 ++ x ++ 0x65#8
  | .unmapped w => w

/-- The two bytes of a word as the image holds them, high byte first (R41). -/
def bytesOfWord (w : Word) : List Byte := [w.extractLsb' 8 8, w.extractLsb' 0 8]

/-- The bytes of an instruction as the image holds them. -/
def encodeBytes (i : Instr) : List Byte := bytesOfWord (encode i)

/-- The raw word of an opcode-table entry of `nbits` bits whose value is `w`; the bits above `nbits` are zero. -/
def tableWord (nbits w : Nat) : Word := BitVec.ofNat 16 (w % 2 ^ nbits)

/-- What the decoder reads from an instruction whose bits are `w`, numbered as spec/opcode_table.json numbers
them. -/
def decodeTableWord (nbits w : Nat) : Option Instr :=
  match decodeBytes (bytesOfWord (tableWord nbits w)) with
  | .ok (i, _) => some i
  | .error _ => none

end Sys2Proof
end

