-- ==== Sys2Proof/Machine/State.lean ====
section
/-! DEFINITION. The state of the word sequencer U3, which is all the state the block has (spec 10_state.md R22, R24
to R29), as plain data; the reasons a step can stop; and the state after reset (R33). -/

namespace Sys2Proof.Machine

/-- The input image (10_state.md R26): the list of its (byte offset, byte) pairs. -/
abbrev Memory := List Host.Cell

/-- `L`, the number of bytes of the image (R26). -/
def Memory.size (m : Memory) : Nat := m.length

/-- The canonical form: the listed offsets are 0, 1, ..., L-1 in this order (R26, R34, 20_memory.md R47), so they
rise strictly, none is listed twice, and an unlisted offset lies outside the image and has no value. -/
abbrev Memory.wf (m : Memory) : Prop := m.map Prod.fst = List.range m.size

/-- The error status (R28). -/
inductive ErrStatus where
  /-- `None`. -/
  | none
  /-- `SizedInput(L)`: the odd length that caused the error (60_exceptions.md R211). -/
  | sizedInput (len : Nat)
  deriving DecidableEq, Repr

/-- Where the run stands (R29). -/
inductive Phase where
  /-- An image is present, nothing checked yet. -/
  | ready
  /-- The length check passed; words are being processed. -/
  | running
  /-- Every word has been processed; `out` is final. Terminal. -/
  | done
  /-- The length check failed; `err` is set. Terminal. -/
  | failed
  deriving DecidableEq, Repr

/-- The state of the block (10_state.md section 2). `L` is `image.size`: it is not stored a second time. -/
structure State where
  /-- The input image (R26); no step writes it. -/
  image : Memory
  /-- The word cursor: the byte offset of the next word (R24). -/
  pos : Nat
  /-- The output line list (R27). -/
  out : List Line
  /-- The error status (R28). -/
  err : ErrStatus
  /-- Where the run stands (R29). -/
  phase : Phase
  deriving DecidableEq, Repr

/-- `L` (46_pipeline_and_host.md R190). -/
def State.len (s : State) : Nat := s.image.size

/-- The state right after reset (R33): `pos = 0`, `out = []`, `err = None`, `phase = Ready`. The image is the
host's to supply; here nothing is listed (log entry 2). -/
def State.reset : State where
  image := []
  pos := 0
  out := []
  err := .none
  phase := .ready

/-- Why the machine stops. Neither reason arises in a state that meets `Sys2Proof.RunInvariant`, which every run from
reset keeps. -/
inductive Fault where
  /-- Raised by the word step when `MemRead(pos, 2)` is not defined: `pos + 2 > L`, or the image does not list
  the byte (20_memory.md R44, "must give such a read no value"). SAFE: the model stops where no run comes. -/
  | readOutsideImage (pos : Nat)
  /-- Raised by the sequencer in phase Running with `pos > L`, where neither the word step nor the end step is
  enabled (46_pipeline_and_host.md R191, R193). SAFE: the model stops where no run comes (R25). -/
  | cursorPastEnd (pos : Nat)
  deriving DecidableEq, Repr

/-- Why an instruction is refused. No instruction of the model is: every row of the opcode table has its
meaning. -/
inductive Refusal where
  /-- Raised by an arm of `exec` whose instruction has no meaning yet. SAFE: the model stops. -/
  | notModelled (mnemonic : String)
  deriving DecidableEq, Repr

end Sys2Proof.Machine
end

