-- ==== Sys2Proof/Machine/Flags.lean ====
section
/-! DEFINITION. Flag computations. The block has no condition codes: "no flags that an instruction sets or reads"
(spec 10_state.md R32), and no row computes a carry, borrow or overflow (43_class_8.md). The one condition the
block computes is the parity of the image length (46_pipeline_and_host.md R192). -/

namespace Sys2Proof.Machine

/-- The condition of SizedInputError: `L mod 2 == 1` (R192; 60_exceptions.md R211). -/
def lengthIsOdd (s : State) : Bool := s.len % 2 == 1

end Sys2Proof.Machine
end

