-- ==== Sys2Proof/Machine/Ops.lean ====
section
/-! DEFINITION. The named operations over the image and the state: the read primitive (spec 20_memory.md R44), the
loading of an image (46_pipeline_and_host.md R200), `emit` and the cursor (00_scope.md R15), the start and end
steps (R192, R193), taking the block's one exception (60_exceptions.md R211), and reset
(70_reset_and_hazards.md R240). -/

namespace Sys2Proof.Machine

/-- The image of a byte sequence whose first byte stands at offset `base`. -/
def Memory.ofBytesFrom (base : Nat) : List Byte → Memory
  | [] => []
  | b :: bs => (base, b) :: Memory.ofBytesFrom (base + 1) bs

/-- The image of a byte sequence: the first byte at offset 0 (20_memory.md R47). -/
def Memory.ofBytes (bs : List Byte) : Memory := Memory.ofBytesFrom 0 bs

/-- The bytes of an image in offset order. -/
def Memory.bytes (m : Memory) : List Byte := m.map Prod.snd

/-- The byte at an offset; none outside the image. -/
def Memory.read (m : Memory) (addr : Nat) : Option Byte := m.lookup addr

/-- `MemRead(addr, 1)`: defined only when `addr + 1 <= L` (R44). No rule of the spec uses it. -/
def memRead1 (m : Memory) (addr : Nat) : Option Byte :=
  if addr + 1 ≤ m.size then m.read addr else none

/-- `MemRead(addr, 2)`: defined only when `addr + 2 <= L`; the byte at the lower offset in the high bits (R41,
R44). -/
def memRead2 (m : Memory) (addr : Nat) : Option Word :=
  if addr + 2 ≤ m.size then
    match m.read addr, m.read (addr + 1) with
    | some hi, some lo => some (wordOfBytes hi lo)
    | _, _ => none
  else none

/-- The image `m` with the bytes of `w` at the offsets `addr` and `addr + 1`, lengthened with zero bytes where it
is too short to hold them. The block never does this: it stands for a host's preparation of an image. -/
def Memory.placeWord (m : Memory) (addr : Nat) (w : Word) : Memory :=
  .ofBytes (m.bytes.take addr ++ List.replicate (addr - m.size) 0#8 ++ bytesOfWord w ++ m.bytes.drop (addr + 2))

/-- The word fetch: `MemRead(pos, 2)` (R42). -/
def fetchWord (s : State) : Option Word := memRead2 s.image s.pos

/-- `emit(line)`: append one line at the end of `out` (00_scope.md R15; 10_state.md R27). -/
def emit (line : Line) (s : State) : State := { s with out := s.out ++ [line] }

/-- `pos <- pos + 2` (10_state.md R24). -/
def advance (s : State) : State := { s with pos := s.pos + Config.bytesPerWord }

/-- What every row does with its line: emit it, and go on to the next word (46_pipeline_and_host.md R191). It
never raises and touches neither the image nor `err` nor `phase`. -/
def emitLine (line : Line) (s : State) : Host.Outcome State Fault Refusal := .next (advance (emit line s))

/-- Taking the exception `SizedInputError` (60_exceptions.md R211, R222): `err <- SizedInput(L)`,
`phase <- Failed`. Nothing is saved and control goes nowhere. There is no return from it (R223): only `resetBlock`
leaves `Failed`. -/
def raiseSizedInputError (s : State) : State := { s with err := .sizedInput s.len, phase := .failed }

/-- The start step, in phase Ready (R192): the length check, before anything is fetched. -/
def startStep (s : State) : State :=
  if lengthIsOdd s then raiseSizedInputError s else { s with phase := .running }

/-- The end step (R193). -/
def endStep (s : State) : State := { s with phase := .done }

/-- Reset as the host applies it before every run (R240): everything but the image. -/
def resetBlock (s : State) : State := { s with pos := 0, out := [], err := .none, phase := .ready }

/-- The host's load: the whole image, complete, before the run (R200, R205). -/
def loadImage (bs : List Byte) (s : State) : State := { s with image := .ofBytes bs }

/-- A block ready to run over an image: load, then reset (70_reset_and_hazards.md R242). -/
def boot (bs : List Byte) : State := resetBlock (loadImage bs State.reset)

end Sys2Proof.Machine
end

