-- ==== Sys2Proof/Machine/Class0to7.lean ====
section
/-! DEFINITION. Rows of classes 0x0 to 0x7 (spec 42_class_0_to_7.md): the line of each row and its meaning. -/

namespace Sys2Proof.Machine

/-- The line of `CLS` (R120): the bare name, no padding (41_render_format.md R110). -/
def lineCls : Line := "CLS".toList

/-- `CLS` (R120): emit its line and go on to the next word; nothing else. -/
def execCls (s : State) : Host.Outcome State Fault Refusal := emitLine lineCls s

/-- The line of `RET` (R121): the bare name, no padding (R110). -/
def lineRet : Line := "RET".toList

/-- `RET` (R121): emit its line and go on to the next word; nothing else. -/
def execRet (s : State) : Host.Outcome State Fault Refusal := emitLine lineRet s

/-- The line of `SYS` (R122). -/
def lineSys (nnn : Imm12) : Line := lineWith "SYS".toList (imm12 nnn)

/-- `SYS` (R122): emit its line and go on to the next word; nothing else. -/
def execSys (nnn : Imm12) (s : State) : Host.Outcome State Fault Refusal := emitLine (lineSys nnn) s

/-- The line of `JP` (R123). -/
def lineJp (nnn : Imm12) : Line := lineWith "JP".toList (imm12 nnn)

/-- `JP` (R123): emit its line and go on to the next word; nothing else. -/
def execJp (nnn : Imm12) (s : State) : Host.Outcome State Fault Refusal := emitLine (lineJp nnn) s

/-- The line of `CALL` (R124). -/
def lineCall (nnn : Imm12) : Line := lineWith "CALL".toList (imm12 nnn)

/-- `CALL` (R124): emit its line and go on to the next word; nothing else. -/
def execCall (nnn : Imm12) (s : State) : Host.Outcome State Fault Refusal := emitLine (lineCall nnn) s

/-- The line of `SE` (R125). -/
def lineSeImm (x : Nibble) (kk : Byte) : Line := lineWith "SE".toList (regImm8 x kk)

/-- `SE` (R125): emit its line and go on to the next word; nothing else. -/
def execSeImm (x : Nibble) (kk : Byte) (s : State) : Host.Outcome State Fault Refusal := emitLine (lineSeImm x kk) s

/-- The line of `SNE` (R126). -/
def lineSneImm (x : Nibble) (kk : Byte) : Line := lineWith "SNE".toList (regImm8 x kk)

/-- `SNE` (R126): emit its line and go on to the next word; nothing else. -/
def execSneImm (x : Nibble) (kk : Byte) (s : State) : Host.Outcome State Fault Refusal := emitLine (lineSneImm x kk) s

/-- The line of `SNE` (R127): the name is SNE on purpose; `n` is ignored (R74). -/
def lineSneReg5 (x : Nibble) (y : Nibble) : Line := lineWith "SNE".toList (regReg x y)

/-- `SNE` (R127): emit its line and go on to the next word; nothing else. -/
def execSneReg5 (x : Nibble) (y : Nibble) (_n : Nibble) (s : State) : Host.Outcome State Fault Refusal := emitLine (lineSneReg5 x y) s

/-- The line of `LD` (R128). -/
def lineLdImm (x : Nibble) (kk : Byte) : Line := lineWith "LD".toList (regImm8 x kk)

/-- `LD` (R128): emit its line and go on to the next word; nothing else. -/
def execLdImm (x : Nibble) (kk : Byte) (s : State) : Host.Outcome State Fault Refusal := emitLine (lineLdImm x kk) s

/-- The line of `ADD` (R129). -/
def lineAddImm (x : Nibble) (kk : Byte) : Line := lineWith "ADD".toList (regImm8 x kk)

/-- `ADD` (R129): emit its line and go on to the next word; nothing else. -/
def execAddImm (x : Nibble) (kk : Byte) (s : State) : Host.Outcome State Fault Refusal := emitLine (lineAddImm x kk) s

end Sys2Proof.Machine
end

