-- ==== Sys2Proof/Machine/Class8.lean ====
section
/-! DEFINITION. Rows of class 0x8 (spec 43_class_8.md), selected by the low nibble: the line of each row and its meaning. No
row computes anything on register values: the block has none. -/

namespace Sys2Proof.Machine

/-- The line of `LD` (R140). -/
def lineLdReg (x : Nibble) (y : Nibble) : Line := lineWith "LD".toList (regReg x y)

/-- `LD` (R140): emit its line and go on to the next word; nothing else. -/
def execLdReg (x : Nibble) (y : Nibble) (s : State) : Host.Outcome State Fault Refusal := emitLine (lineLdReg x y) s

/-- The line of `OR` (R141). -/
def lineOrReg (x : Nibble) (y : Nibble) : Line := lineWith "OR".toList (regReg x y)

/-- `OR` (R141): emit its line and go on to the next word; nothing else. -/
def execOrReg (x : Nibble) (y : Nibble) (s : State) : Host.Outcome State Fault Refusal := emitLine (lineOrReg x y) s

/-- The line of `AND` (R142). -/
def lineAndReg (x : Nibble) (y : Nibble) : Line := lineWith "AND".toList (regReg x y)

/-- `AND` (R142): emit its line and go on to the next word; nothing else. -/
def execAndReg (x : Nibble) (y : Nibble) (s : State) : Host.Outcome State Fault Refusal := emitLine (lineAndReg x y) s

/-- The line of `XOR` (R143). -/
def lineXorReg (x : Nibble) (y : Nibble) : Line := lineWith "XOR".toList (regReg x y)

/-- `XOR` (R143): emit its line and go on to the next word; nothing else. -/
def execXorReg (x : Nibble) (y : Nibble) (s : State) : Host.Outcome State Fault Refusal := emitLine (lineXorReg x y) s

/-- The line of `ADD` (R144). -/
def lineAddReg (x : Nibble) (y : Nibble) : Line := lineWith "ADD".toList (regReg x y)

/-- `ADD` (R144): emit its line and go on to the next word; nothing else. -/
def execAddReg (x : Nibble) (y : Nibble) (s : State) : Host.Outcome State Fault Refusal := emitLine (lineAddReg x y) s

/-- The line of `SUB` (R145). -/
def lineSubReg (x : Nibble) (y : Nibble) : Line := lineWith "SUB".toList (regReg x y)

/-- `SUB` (R145): emit its line and go on to the next word; nothing else. -/
def execSubReg (x : Nibble) (y : Nibble) (s : State) : Host.Outcome State Fault Refusal := emitLine (lineSubReg x y) s

/-- The line of `SHR` (R146): the braces are literal. -/
def lineShr (x : Nibble) (y : Nibble) : Line := lineWith "SHR".toList (regBracedReg x y)

/-- `SHR` (R146): emit its line and go on to the next word; nothing else. -/
def execShr (x : Nibble) (y : Nibble) (s : State) : Host.Outcome State Fault Refusal := emitLine (lineShr x y) s

/-- The line of `SUBN` (R147). -/
def lineSubn (x : Nibble) (y : Nibble) : Line := lineWith "SUBN".toList (regReg x y)

/-- `SUBN` (R147): emit its line and go on to the next word; nothing else. -/
def execSubn (x : Nibble) (y : Nibble) (s : State) : Host.Outcome State Fault Refusal := emitLine (lineSubn x y) s

/-- The line of `SHL` (R148): the braces are literal. -/
def lineShl (x : Nibble) (y : Nibble) : Line := lineWith "SHL".toList (regBracedReg x y)

/-- `SHL` (R148): emit its line and go on to the next word; nothing else. -/
def execShl (x : Nibble) (y : Nibble) (s : State) : Host.Outcome State Fault Refusal := emitLine (lineShl x y) s

end Sys2Proof.Machine
end

