-- ==== Sys2Proof/Machine/Class9toD.lean ====
section
/-! DEFINITION. Rows of classes 0x9 to 0xD (spec 44_class_9_to_D.md): the line of each row and its meaning. -/

namespace Sys2Proof.Machine

/-- The line of `SNE` (R160): `n` is ignored (R74). -/
def lineSneReg9 (x : Nibble) (y : Nibble) : Line := lineWith "SNE".toList (regReg x y)

/-- `SNE` (R160): emit its line and go on to the next word; nothing else. -/
def execSneReg9 (x : Nibble) (y : Nibble) (_n : Nibble) (s : State) : Host.Outcome State Fault Refusal := emitLine (lineSneReg9 x y) s

/-- The line of `LD` (R161). -/
def lineLdI (nnn : Imm12) : Line := lineWith "LD".toList (literalImm12 "I".toList nnn)

/-- `LD` (R161): emit its line and go on to the next word; nothing else. -/
def execLdI (nnn : Imm12) (s : State) : Host.Outcome State Fault Refusal := emitLine (lineLdI nnn) s

/-- The line of `JP` (R162): `V0` is literal. -/
def lineJpV0 (nnn : Imm12) : Line := lineWith "JP".toList (literalImm12 "V0".toList nnn)

/-- `JP` (R162): emit its line and go on to the next word; nothing else. -/
def execJpV0 (nnn : Imm12) (s : State) : Host.Outcome State Fault Refusal := emitLine (lineJpV0 nnn) s

/-- The line of `RND` (R163): the register in hexadecimal, alone among the rows. -/
def lineRnd (x : Nibble) (kk : Byte) : Line := lineWith "RND".toList (reghex x ++ separator ++ imm8 kk)

/-- `RND` (R163): emit its line and go on to the next word; nothing else. -/
def execRnd (x : Nibble) (kk : Byte) (s : State) : Host.Outcome State Fault Refusal := emitLine (lineRnd x kk) s

/-- The line of `DRW` (R164): `n` in two digits. -/
def lineDrw (x : Nibble) (y : Nibble) (n : Nibble) : Line := lineWith "DRW".toList (regReg x y ++ separator ++ imm4as8 n)

/-- `DRW` (R164): emit its line and go on to the next word; nothing else. -/
def execDrw (x : Nibble) (y : Nibble) (n : Nibble) (s : State) : Host.Outcome State Fault Refusal := emitLine (lineDrw x y n) s

end Sys2Proof.Machine
end

