-- ==== Sys2Proof/Machine/ClassEF.lean ====
section
/-! DEFINITION. Rows of classes 0xE and 0xF (spec 45_class_E_F.md) and the fall-through row (30_encoding.md R73): the line of
each row and its meaning. `DT`, `ST`, `K`, `F`, `B`, `I` and `[I]` are literal text. -/

namespace Sys2Proof.Machine

/-- The line of `SKP` (R170). -/
def lineSkp (x : Nibble) : Line := lineWith "SKP".toList (regdec x)

/-- `SKP` (R170): emit its line and go on to the next word; nothing else. -/
def execSkp (x : Nibble) (s : State) : Host.Outcome State Fault Refusal := emitLine (lineSkp x) s

/-- The line of `SKNP` (R171). -/
def lineSknp (x : Nibble) : Line := lineWith "SKNP".toList (regdec x)

/-- `SKNP` (R171): emit its line and go on to the next word; nothing else. -/
def execSknp (x : Nibble) (s : State) : Host.Outcome State Fault Refusal := emitLine (lineSknp x) s

/-- The line of `LD` (R173). -/
def lineLdXDt (x : Nibble) : Line := lineWith "LD".toList (regLiteral x "DT".toList)

/-- `LD` (R173): emit its line and go on to the next word; nothing else. -/
def execLdXDt (x : Nibble) (s : State) : Host.Outcome State Fault Refusal := emitLine (lineLdXDt x) s

/-- The line of `LD` (R174). -/
def lineLdXK (x : Nibble) : Line := lineWith "LD".toList (regLiteral x "K".toList)

/-- `LD` (R174): emit its line and go on to the next word; nothing else. -/
def execLdXK (x : Nibble) (s : State) : Host.Outcome State Fault Refusal := emitLine (lineLdXK x) s

/-- The line of `LD` (R175). -/
def lineLdDtX (x : Nibble) : Line := lineWith "LD".toList (literalReg "DT".toList x)

/-- `LD` (R175): emit its line and go on to the next word; nothing else. -/
def execLdDtX (x : Nibble) (s : State) : Host.Outcome State Fault Refusal := emitLine (lineLdDtX x) s

/-- The line of `LD` (R176). -/
def lineLdStX (x : Nibble) : Line := lineWith "LD".toList (literalReg "ST".toList x)

/-- `LD` (R176): emit its line and go on to the next word; nothing else. -/
def execLdStX (x : Nibble) (s : State) : Host.Outcome State Fault Refusal := emitLine (lineLdStX x) s

/-- The line of `ADD` (R177). -/
def lineAddIX (x : Nibble) : Line := lineWith "ADD".toList (literalReg "I".toList x)

/-- `ADD` (R177): emit its line and go on to the next word; nothing else. -/
def execAddIX (x : Nibble) (s : State) : Host.Outcome State Fault Refusal := emitLine (lineAddIX x) s

/-- The line of `LD` (R178). -/
def lineLdFX (x : Nibble) : Line := lineWith "LD".toList (literalReg "F".toList x)

/-- `LD` (R178): emit its line and go on to the next word; nothing else. -/
def execLdFX (x : Nibble) (s : State) : Host.Outcome State Fault Refusal := emitLine (lineLdFX x) s

/-- The line of `LD` (R179). -/
def lineLdBX (x : Nibble) : Line := lineWith "LD".toList (literalReg "B".toList x)

/-- `LD` (R179): emit its line and go on to the next word; nothing else. -/
def execLdBX (x : Nibble) (s : State) : Host.Outcome State Fault Refusal := emitLine (lineLdBX x) s

/-- The line of `LD` (R180). -/
def lineLdIindX (x : Nibble) : Line := lineWith "LD".toList (literalReg "[I]".toList x)

/-- `LD` (R180): emit its line and go on to the next word; nothing else. -/
def execLdIindX (x : Nibble) (s : State) : Host.Outcome State Fault Refusal := emitLine (lineLdIindX x) s

/-- The line of `LD` (R181). -/
def lineLdXIind (x : Nibble) : Line := lineWith "LD".toList (regLiteral x "[I]".toList)

/-- `LD` (R181): emit its line and go on to the next word; nothing else. -/
def execLdXIind (x : Nibble) (s : State) : Host.Outcome State Fault Refusal := emitLine (lineLdXIind x) s

/-- The line of `??` (R73, R149, R172, R182): the placeholder, never padded; not an error (R212). -/
def lineUnmapped : Line := Config.unmappedText

/-- `??` (R73, R149, R172, R182): emit its line and go on to the next word; nothing else. -/
def execUnmapped (_w : Word) (s : State) : Host.Outcome State Fault Refusal := emitLine lineUnmapped s

end Sys2Proof.Machine
end

