-- ==== Sys2Proof/Machine/Dispatch.lean ====
section
/-! DEFINITION. One arm per instruction: the meaning it has (spec 30_encoding.md R70, R72). -/

namespace Sys2Proof.Machine

/-- The word step after the fetch and the selection of the row: the meaning of the row (46_pipeline_and_host.md
R191). -/
def exec (i : Instr) (s : State) : Host.Outcome State Fault Refusal :=
  match i with
  | .cls => Sys2Proof.Machine.execCls s
  | .ret => Sys2Proof.Machine.execRet s
  | .sys nnn => Sys2Proof.Machine.execSys nnn s
  | .jp nnn => Sys2Proof.Machine.execJp nnn s
  | .call nnn => Sys2Proof.Machine.execCall nnn s
  | .seImm x kk => Sys2Proof.Machine.execSeImm x kk s
  | .sneImm x kk => Sys2Proof.Machine.execSneImm x kk s
  | .sneReg5 x y n => Sys2Proof.Machine.execSneReg5 x y n s
  | .ldImm x kk => Sys2Proof.Machine.execLdImm x kk s
  | .addImm x kk => Sys2Proof.Machine.execAddImm x kk s
  | .ldReg x y => Sys2Proof.Machine.execLdReg x y s
  | .orReg x y => Sys2Proof.Machine.execOrReg x y s
  | .andReg x y => Sys2Proof.Machine.execAndReg x y s
  | .xorReg x y => Sys2Proof.Machine.execXorReg x y s
  | .addReg x y => Sys2Proof.Machine.execAddReg x y s
  | .subReg x y => Sys2Proof.Machine.execSubReg x y s
  | .shr x y => Sys2Proof.Machine.execShr x y s
  | .subn x y => Sys2Proof.Machine.execSubn x y s
  | .shl x y => Sys2Proof.Machine.execShl x y s
  | .sneReg9 x y n => Sys2Proof.Machine.execSneReg9 x y n s
  | .ldI nnn => Sys2Proof.Machine.execLdI nnn s
  | .jpV0 nnn => Sys2Proof.Machine.execJpV0 nnn s
  | .rnd x kk => Sys2Proof.Machine.execRnd x kk s
  | .drw x y n => Sys2Proof.Machine.execDrw x y n s
  | .skp x => Sys2Proof.Machine.execSkp x s
  | .sknp x => Sys2Proof.Machine.execSknp x s
  | .ldXDt x => Sys2Proof.Machine.execLdXDt x s
  | .ldXK x => Sys2Proof.Machine.execLdXK x s
  | .ldDtX x => Sys2Proof.Machine.execLdDtX x s
  | .ldStX x => Sys2Proof.Machine.execLdStX x s
  | .addIX x => Sys2Proof.Machine.execAddIX x s
  | .ldFX x => Sys2Proof.Machine.execLdFX x s
  | .ldBX x => Sys2Proof.Machine.execLdBX x s
  | .ldIindX x => Sys2Proof.Machine.execLdIindX x s
  | .ldXIind x => Sys2Proof.Machine.execLdXIind x s
  | .unmapped w => Sys2Proof.Machine.execUnmapped w s

end Sys2Proof.Machine
end

