-- ==== Sys2Proof/Machine/Sequencer.lean ====
section
/-! DEFINITION. U3, the word sequencer: which of its steps is enabled, and the word step (spec
46_pipeline_and_host.md R190 to R194). -/

namespace Sys2Proof.Machine

/-- The word step (R191): fetch, decode, render, emit, advance. A fetch that `MemRead` does not define has no
value (20_memory.md R44): the model stops. -/
def wordStep (s : State) : Host.Outcome State Fault Refusal :=
  match fetchWord s with
  | some w => exec (decodeWord w) s
  | none => .fault (.readOutsideImage s.pos)

/-- Phase Running: the word step while `pos < L` (R191), the end step at `pos == L` (R193); past the end no step
is enabled. -/
def runningStep (s : State) : Host.Outcome State Fault Refusal :=
  if s.pos < s.len then wordStep s
  else if s.pos = s.len then .next (endStep s)
  else .fault (.cursorPastEnd s.pos)

/-- One step of U3. In Done and Failed no step is enabled and "the state no longer changes until reset" (R194):
the answer is the same state (log entry 3). -/
def sequencerStep (s : State) : Host.Outcome State Fault Refusal :=
  match s.phase with
  | .ready => .next (startStep s)
  | .running => runningStep s
  | .done => .next s
  | .failed => .next s

end Sys2Proof.Machine
end

