-- ==== Sys2Proof/Machine/Step.lean ====
section
/-! DEFINITION. One step of the machine, which is one step of U3 (spec 46_pipeline_and_host.md R190), and the
placing of one word where the next step fetches. -/

namespace Sys2Proof.Machine

/-- One step of the block. -/
def step (s : State) : Host.Outcome State Fault Refusal := sequencerStep s

/-- `s` with the word of an opcode-table entry placed at `pos`, the length check passed, so that the very next
step is the word step that runs it (log entry 7). It stands for a host's load of an image and the start step. -/
def State.withFetchWord (s : State) (nbits w : Nat) : State :=
  { s with image := s.image.placeWord s.pos (tableWord nbits w), phase := .running }

end Sys2Proof.Machine
end

