-- ==== Sys2Proof/Machine/Render.lean ====
section
/-! DEFINITION. U2 as the spec's own function `render` from field-sets to lines (spec 30_encoding.md R70), written
from its pseudocode and not through `Instr`. -/

namespace Sys2Proof.Machine

/-- `render(f)`, class 0x0 (R66, R70). -/
def renderClass0 (f : Fields) : Line :=
  if f.nnn = 0x0E0 then lineCls
  else if f.nnn = 0x0EE then lineRet
  else lineSys f.nnn

/-- `render(f)`, class 0x8 (R66, R70, R149). -/
def renderClass8 (f : Fields) : Line :=
  match f.n with
  | 0x0#4 => lineLdReg f.x f.y
  | 0x1#4 => lineOrReg f.x f.y
  | 0x2#4 => lineAndReg f.x f.y
  | 0x3#4 => lineXorReg f.x f.y
  | 0x4#4 => lineAddReg f.x f.y
  | 0x5#4 => lineSubReg f.x f.y
  | 0x6#4 => lineShr f.x f.y
  | 0x7#4 => lineSubn f.x f.y
  | 0xE#4 => lineShl f.x f.y
  | _ => lineUnmapped

/-- `render(f)`, class 0xE (R66, R70, R172). -/
def renderClassE (f : Fields) : Line :=
  match f.lowByte with
  | 0x9E#8 => lineSkp f.x
  | 0xA1#8 => lineSknp f.x
  | _ => lineUnmapped

/-- `render(f)`, class 0xF (R66, R70, R182). -/
def renderClassF (f : Fields) : Line :=
  match f.lowByte with
  | 0x07#8 => lineLdXDt f.x
  | 0x0A#8 => lineLdXK f.x
  | 0x15#8 => lineLdDtX f.x
  | 0x18#8 => lineLdStX f.x
  | 0x1E#8 => lineAddIX f.x
  | 0x29#8 => lineLdFX f.x
  | 0x33#8 => lineLdBX f.x
  | 0x55#8 => lineLdIindX f.x
  | 0x65#8 => lineLdXIind f.x
  | _ => lineUnmapped

/-- `render(f)`, the function of U2 (R70). Total on field-sets; what it gives for a record that no word produces
is no statement about the block (93_implementation_defined.md U8). The last arm is class 0xF. -/
def render (f : Fields) : Line :=
  match f.opcodeClass with
  | 0x0#4 => renderClass0 f
  | 0x1#4 => lineJp f.nnn
  | 0x2#4 => lineCall f.nnn
  | 0x3#4 => lineSeImm f.x f.kk
  | 0x4#4 => lineSneImm f.x f.kk
  | 0x5#4 => lineSneReg5 f.x f.y
  | 0x6#4 => lineLdImm f.x f.kk
  | 0x7#4 => lineAddImm f.x f.kk
  | 0x8#4 => renderClass8 f
  | 0x9#4 => lineSneReg9 f.x f.y
  | 0xA#4 => lineLdI f.nnn
  | 0xB#4 => lineJpV0 f.nnn
  | 0xC#4 => lineRnd f.x f.kk
  | 0xD#4 => lineDrw f.x f.y f.n
  | 0xE#4 => renderClassE f
  | _ => renderClassF f

end Sys2Proof.Machine
end

