-- ==== Sys2Proof/Machine/Disassemble.lean ====
section
/-! DEFINITION. The whole run as one function (spec 46_pipeline_and_host.md R195), and the host around the block: the
text artifact, the collection of a result, the command line's output path, and host errors (R201 to R205). -/

namespace Sys2Proof.Machine

/-- The line of each word of a byte sequence, in order; a last byte without a partner gives no line. -/
def linesOf : List Byte → List Line
  | hi :: lo :: rest => render (fields (wordOfBytes hi lo)) :: linesOf rest
  | [_] => []
  | [] => []

/-- The result of a run (R195). -/
inductive RunResult where
  /-- `Ok(lines)`. -/
  | ok (lines : List Line)
  /-- `Error(SizedInput(L))`. -/
  | sizedInputError (len : Nat)
  deriving DecidableEq, Repr

/-- `disassemble(image)` (R195). -/
def disassemble (bs : List Byte) : RunResult :=
  if bs.length % 2 = 1 then .sizedInputError bs.length else .ok (linesOf bs)

/-- The newline: one line feed, code 0x0A (R202, decision D5). -/
def newline : Char := Char.ofNat 0x0A

/-- The text artifact `text(out)`: every line followed by one newline (R202; empty for no line, decision D10). -/
def textOf (out : List Line) : Line := out.flatMap (· ++ [newline])

/-- What the host does at the end (R201, R204): error texts and exit status are not modelled
(93_implementation_defined.md U4). -/
inductive HostReport where
  /-- Success: the text artifact is written. -/
  | wrote (text : Line)
  /-- Failure: `SizedInput(L)` is reported, and no artifact is written (R201). -/
  | sizedInputError (len : Nat)
  /-- Failure: a file cannot be read or written. A distinct kind (R204, R210); no artifact is written. -/
  | ioError
  deriving DecidableEq, Repr

/-- Collection (R201, R205): the host waits (none) until `phase` is Done or Failed, and then reads `out` or `err`.
Phase Failed without an error is reached by no run. -/
def collect (s : State) : Option HostReport :=
  match s.phase, s.err with
  | .done, _ => some (.wrote (textOf s.out))
  | .failed, .sizedInput len => some (.sizedInputError len)
  | .failed, .none => none
  | .ready, _ => none
  | .running, _ => none

/-- The host's whole use of the block: `input` is what the file reader gives (none: it cannot be read),
`writable` whether the artifact can be written. A read error comes first and the block is never started; a write
error comes after the run (R204; 60_exceptions.md R221). -/
def hostRun (input : Option (List Byte)) (writable : Bool) : HostReport :=
  match input with
  | none => .ioError
  | some bs =>
    match disassemble bs with
    | .sizedInputError len => .sizedInputError len
    | .ok lines => if writable then .wrote (textOf lines) else .ioError

/-- The output path of the command line (R203): the second argument where there is one, else the input path with
its last three characters replaced by `asm`. None: an input path of fewer than three characters, which the source
leaves open, is refused (93_implementation_defined.md U3). -/
def outputPath (input : Line) (output : Option Line) : Option Line :=
  match output with
  | some path => some path
  | none => if input.length < 3 then none else some (input.take (input.length - 3) ++ "asm".toList)

end Sys2Proof.Machine
end

