-- ==== Sys2Proof/Machine/Rom.lean ====
section
/-! DEFINITION. The opcode ROM as a constant table of 36 rows, first match wins (spec 30_encoding.md R71, R72, R79),
and the ports of U2 (41_render_format.md R100). A third reading of the same map, beside `select` and `render`. -/

namespace Sys2Proof.Machine

/-- One piece of a row's operand template (00_scope.md R19; 41_render_format.md R104 to R109). -/
inductive Slot where
  /-- Literal characters. -/
  | lit (text : Line)
  /-- `Vx`, decimal. -/
  | vx
  /-- `Vy`, decimal. -/
  | vy
  /-- `Vx` of `RND`, hexadecimal. -/
  | vxHex
  /-- `#kk`. -/
  | kk
  /-- `#nnn`. -/
  | nnn
  /-- `#n` of `DRW`. -/
  | n
  deriving DecidableEq, Repr

/-- One row of the opcode ROM (R72). -/
structure RomRow where
  /-- The row index. -/
  mid : Nat
  /-- The name; the placeholder for the fall-through row. -/
  name : Line
  /-- The operand template; empty for a row without operands. -/
  template : List Slot
  /-- `match` of R72. -/
  pattern : Word
  /-- `mask` of R72. -/
  mask : Word
  /-- `(none)`, or for SYS the two words that take an earlier row (R79). -/
  excludes : List Word
  deriving DecidableEq, Repr

/-- A row without exclusions. -/
def romRow (mid : Nat) (name : String) (template : List Slot) (pattern mask : Word) : RomRow :=
  { mid, name := name.toList, template, pattern, mask, excludes := [] }

/-- `, ` between two operands (R109). -/
def sepSlot : Slot := .lit separator

/-- The template `Vx, Vy`. -/
def vxVy : List Slot := [.vx, sepSlot, .vy]

/-- The template `Vx, #kk`. -/
def vxKk : List Slot := [.vx, sepSlot, .kk]

/-- The template `Vx{, Vy}`, the braces literal (R78). -/
def vxBracedVy : List Slot := [.vx, .lit (openBrace :: separator), .vy, .lit [closeBrace]]

/-- mid 0 to 9. -/
def romClass0to7 : List RomRow := [
  romRow 0 "CLS" [] 0x00E0 0xFFFF,
  romRow 1 "RET" [] 0x00EE 0xFFFF,
  { romRow 2 "SYS" [.nnn] 0x0000 0xF000 with excludes := [0x00E0, 0x00EE] },
  romRow 3 "JP" [.nnn] 0x1000 0xF000,
  romRow 4 "CALL" [.nnn] 0x2000 0xF000,
  romRow 5 "SE" vxKk 0x3000 0xF000,
  romRow 6 "SNE" vxKk 0x4000 0xF000,
  romRow 7 "SNE" vxVy 0x5000 0xF000,
  romRow 8 "LD" vxKk 0x6000 0xF000,
  romRow 9 "ADD" vxKk 0x7000 0xF000]

/-- mid 10 to 18. -/
def romClass8 : List RomRow := [
  romRow 10 "LD" vxVy 0x8000 0xF00F,
  romRow 11 "OR" vxVy 0x8001 0xF00F,
  romRow 12 "AND" vxVy 0x8002 0xF00F,
  romRow 13 "XOR" vxVy 0x8003 0xF00F,
  romRow 14 "ADD" vxVy 0x8004 0xF00F,
  romRow 15 "SUB" vxVy 0x8005 0xF00F,
  romRow 16 "SHR" vxBracedVy 0x8006 0xF00F,
  romRow 17 "SUBN" vxVy 0x8007 0xF00F,
  romRow 18 "SHL" vxBracedVy 0x800E 0xF00F]

/-- mid 19 to 23. -/
def romClass9toD : List RomRow := [
  romRow 19 "SNE" vxVy 0x9000 0xF000,
  romRow 20 "LD" [.lit "I, ".toList, .nnn] 0xA000 0xF000,
  romRow 21 "JP" [.lit "V0, ".toList, .nnn] 0xB000 0xF000,
  romRow 22 "RND" [.vxHex, sepSlot, .kk] 0xC000 0xF000,
  romRow 23 "DRW" [.vx, sepSlot, .vy, sepSlot, .n] 0xD000 0xF000]

/-- mid 24 to 34. -/
def romClassEF : List RomRow := [
  romRow 24 "SKP" [.vx] 0xE09E 0xF0FF,
  romRow 25 "SKNP" [.vx] 0xE0A1 0xF0FF,
  romRow 26 "LD" [.vx, .lit ", DT".toList] 0xF007 0xF0FF,
  romRow 27 "LD" [.vx, .lit ", K".toList] 0xF00A 0xF0FF,
  romRow 28 "LD" [.lit "DT, ".toList, .vx] 0xF015 0xF0FF,
  romRow 29 "LD" [.lit "ST, ".toList, .vx] 0xF018 0xF0FF,
  romRow 30 "ADD" [.lit "I, ".toList, .vx] 0xF01E 0xF0FF,
  romRow 31 "LD" [.lit "F, ".toList, .vx] 0xF029 0xF0FF,
  romRow 32 "LD" [.lit "B, ".toList, .vx] 0xF033 0xF0FF,
  romRow 33 "LD" [.lit "[I], ".toList, .vx] 0xF055 0xF0FF,
  romRow 34 "LD" [.vx, .lit ", [I]".toList] 0xF065 0xF0FF]

/-- mid 35, the fall-through row: every word matches it (R73). -/
def romUnmapped : RomRow := romRow 35 "??" [] 0x0000 0x0000

/-- The opcode ROM (R72): 36 rows in `mid` order. -/
def opcodeRom : List RomRow := romClass0to7 ++ romClass8 ++ romClass9toD ++ romClassEF ++ [romUnmapped]

/-- A word selects a row when `(w AND mask) == match` and the row does not exclude it (R72). -/
def RomRow.selects (r : RomRow) (w : Word) : Bool := (w &&& r.mask) == r.pattern && !r.excludes.contains w

/-- The row of a word: the rows are tested in order and the first match is taken (R71, R79). -/
def romSelect (w : Word) : RomRow := (opcodeRom.find? (·.selects w)).getD romUnmapped

/-- One slot filled with the formatted field. -/
def Slot.fill (f : Fields) : Slot → Line
  | .lit text => text
  | .vx => regdec f.x
  | .vy => regdec f.y
  | .vxHex => reghex f.x
  | .kk => imm8 f.kk
  | .nnn => imm12 f.nnn
  | .n => imm4as8 f.n

/-- The line of a row: the bare name, or the padded name and the filled template (R77, R110). -/
def RomRow.line (r : RomRow) (f : Fields) : Line :=
  if r.template = [] then r.name else pad6 r.name ++ r.template.flatMap (Slot.fill f)

/-- The row index of an instruction (R72). -/
def midOf : Instr → Nat
  | .cls => 0
  | .ret => 1
  | .sys _ => 2
  | .jp _ => 3
  | .call _ => 4
  | .seImm _ _ => 5
  | .sneImm _ _ => 6
  | .sneReg5 _ _ _ => 7
  | .ldImm _ _ => 8
  | .addImm _ _ => 9
  | .ldReg _ _ => 10
  | .orReg _ _ => 11
  | .andReg _ _ => 12
  | .xorReg _ _ => 13
  | .addReg _ _ => 14
  | .subReg _ _ => 15
  | .shr _ _ => 16
  | .subn _ _ => 17
  | .shl _ _ => 18
  | .sneReg9 _ _ _ => 19
  | .ldI _ => 20
  | .jpV0 _ => 21
  | .rnd _ _ => 22
  | .drw _ _ _ => 23
  | .skp _ => 24
  | .sknp _ => 25
  | .ldXDt _ => 26
  | .ldXK _ => 27
  | .ldDtX _ => 28
  | .ldStX _ => 29
  | .addIX _ => 30
  | .ldFX _ => 31
  | .ldBX _ => 32
  | .ldIindX _ => 33
  | .ldXIind _ => 34
  | .unmapped _ => 35

/-- The code of a character: 7-bit ASCII in 8 bits (41_render_format.md R112, decision D5). -/
def charCode (c : Char) : Byte := BitVec.ofNat 8 c.toNat

/-- The output ports of U2 (R100). -/
structure MapperPorts where
  /-- The selected ROM row, 0 to 35. -/
  mid : BitVec 6
  /-- `len(line)`, 2 to 19. -/
  lineLen : BitVec 5
  /-- The characters of the line; entries at `lineLen` and beyond carry no meaning. -/
  lineChar : Vector Byte Config.maxLine
  deriving DecidableEq, Repr

/-- One entry of the port `line_char`: the code of the line's character, and beyond the line the free value
(R100). -/
def lineCharAt (w : Word) (k : Nat) : Byte :=
  (((render (fields w))[k]?).map charCode).getD (Config.freeLineChar w k)

/-- U1 and U2 as wires: what U2's ports carry for a raw word (40_field_extractor.md R90; 41_render_format.md R100). -/
def mapperPorts (w : Word) : MapperPorts where
  mid := BitVec.ofNat 6 (midOf (decodeWord w))
  lineLen := BitVec.ofNat 5 (render (fields w)).length
  lineChar := Vector.ofFn fun k => lineCharAt w k.val

end Sys2Proof.Machine
end

