-- ==== Sys2Proof/Safety.lean ====
section
/-! DEFINITION. The terms the statements use: the invariant of a run (spec 10_state.md R25, R29, R33;
46_pipeline_and_host.md R194, R196), and readings of lines (30_encoding.md R77; 41_render_format.md R112). -/

namespace Sys2Proof

open Sys2Proof.Machine

/-- What holds in every state of a run: the image is in canonical form and, by phase, the cursor, the lines and
the error status are what R25, R29, R33, R194 and R196 say. In Running, `out` holds exactly the lines of the words
before `pos`. -/
def RunInvariant (s : State) : Prop :=
  s.image.wf ∧
  match s.phase with
  | .ready => s.pos = 0 ∧ s.out = [] ∧ s.err = .none
  | .running =>
    s.len % 2 = 0 ∧ s.pos % 2 = 0 ∧ s.pos ≤ s.len ∧ s.err = .none ∧ s.out = linesOf (s.image.bytes.take s.pos)
  | .done => s.len % 2 = 0 ∧ s.pos = s.len ∧ s.err = .none ∧ s.out = linesOf s.image.bytes
  | .failed => s.len % 2 = 1 ∧ s.pos = 0 ∧ s.err = .sizedInput s.len ∧ s.out = []

/-- The run is over (R194). -/
def terminal (s : State) : Bool := s.phase == .done || s.phase == .failed

/-- How many steps a run still takes (R198): 1 or `L/2 + 2` from Ready, one for each word left and the end step
from Running, none from Done and Failed. -/
def stepsLeft (s : State) : Nat :=
  match s.phase with
  | .ready => if s.len % 2 = 1 then 1 else s.len / 2 + 2
  | .running => (s.len - s.pos) / 2 + 1
  | .done => 0
  | .failed => 0

/-- `k` steps of the machine, through the host's own runner. -/
def runSteps (k : Nat) (s : State) : Host.Outcome State Fault Refusal := Sys2Proof.core.run k s

/-- The characters that lines use (41_render_format.md R112). -/
def isLineChar (c : Char) : Bool :=
  " #,?[]".toList.contains c || [openBrace, closeBrace].contains c || "0123456789".toList.contains c ||
  "ABCDEFGHIJKLMNOPQRSTUVWXYZ".toList.contains c

/-- The 18 names that stand in the name column before operands (30_encoding.md R77; 41_render_format.md R101). -/
def paddedNames : List Line :=
  ["SYS", "JP", "CALL", "SE", "SNE", "LD", "ADD", "OR", "AND"].map String.toList ++
  ["XOR", "SUB", "SHR", "SUBN", "SHL", "RND", "DRW", "SKP", "SKNP"].map String.toList

/-- The value of an uppercase hexadecimal digit (41_render_format.md R102): its place among the sixteen. -/
def hexDigitValue (c : Char) : Option Nat := "0123456789ABCDEF".toList.idxOf? c

/-- The value of a numeral in a radix, most significant digit first. -/
def numeralValue (radix : Nat) (ds : Line) : Option Nat :=
  ds.foldl (fun acc c => acc.bind fun v => (hexDigitValue c).map fun d => radix * v + d) (some 0)

end Sys2Proof
end

