-- ==== Sys2Proof/Certificates/Slice0/Obligations.lean ====
section
/-! DEFINITION. The statements for the provers. Lines are written out from the spec's templates, with the name column
spelled in full; `regdec`, `imm8` and the other formatting primitives have statements of their own. A statement
whose docstring names a decision of the spec (D<n>), a `[derived]` mark or a log entry has basis 'derived'. -/

open Sys2Proof Sys2Proof.Machine

/-! ## Reset and the run -/

/-- What reset leaves (10_state.md section 4, decision D8 of the spec): the cursor at 0, no line, no error, phase
Ready; reset leaves the image alone (70_reset_and_hazards.md section 1). -/
def Obligations.ResetLeavesIdleSequencer : Prop :=
  (State.reset.pos = 0 ∧ State.reset.out = [] ∧ State.reset.err = .none ∧ State.reset.phase = .ready) ∧
  ∀ s : State,
    (resetBlock s).pos = 0 ∧ (resetBlock s).out = [] ∧ (resetBlock s).err = .none ∧
    (resetBlock s).phase = .ready ∧ (resetBlock s).image = s.image

/-- The invariant of a run holds at reset, and after reset of any state whose image is in canonical form. -/
def Obligations.InvariantHoldsAtReset : Prop :=
  RunInvariant State.reset ∧ ∀ s : State, s.image.wf → RunInvariant (resetBlock s)

/-- Loading any byte sequence and resetting gives a state that meets the invariant and whose image is exactly those
bytes, read by their offset (20_memory.md section 5; 70_reset_and_hazards.md section 2). -/
def Obligations.BootedImageMeetsInvariant : Prop :=
  ∀ bs : List Byte,
    RunInvariant (boot bs) ∧ (boot bs).len = bs.length ∧ (boot bs).image.bytes = bs ∧
    ∀ k, (boot bs).image.read k = bs[k]?

/-- Every step keeps the invariant: the image stays canonical, the cursor stays even and inside the image, and
`out` holds exactly the lines of the words before the cursor (10_state.md R25 is marked `[derived]` there). From every
state that meets it, not only from runs. -/
def Obligations.StepKeepsInvariant : Prop :=
  ∀ s t : State, RunInvariant s → step s = .next t → RunInvariant t

/-- Under the invariant the block is never stuck: every step answers a next state, and no fault and no refusal is
reached (46_pipeline_and_host.md section 2: "never stuck before the end of the run"; decision D3). In Done and Failed,
where the spec enables no step (R194), that the model answers a next state is its own choice, log entry 3. -/
def Obligations.InvariantStateAlwaysSteps : Prop :=
  ∀ s : State, RunInvariant s → ∃ t, step s = .next t

/-- Under the invariant each step of a run that is not over brings the end one step nearer (46_pipeline_and_host.md
section 2, step counts marked `[derived]`). -/
def Obligations.StepsLeftCountsDown : Prop :=
  ∀ s : State, RunInvariant s → terminal s = false → ∃ t, step s = .next t ∧ stepsLeft t + 1 = stepsLeft s

/-- The run of the machine is the function `disassemble` (46_pipeline_and_host.md section 3, marked `[derived]`;
decisions D3, D4, D8): an even image ends in Done after `L/2 + 2` steps with the lines of `Ok`, an odd one in Failed
after 1 step with the error, and neither state changes any more (staying is the model's choice, log entry 3). -/
def Obligations.RunEqualsDisassemble : Prop :=
  ∀ (bs : List Byte) (k : Nat),
    match disassemble bs with
    | .ok lines =>
      runSteps (bs.length / 2 + 2 + k) (boot bs) =
        .next { boot bs with pos := bs.length, out := lines, phase := .done }
    | .sizedInputError len =>
      runSteps (1 + k) (boot bs) = .next { boot bs with err := .sizedInput len, phase := .failed }

/-- R196, the properties of a successful run: (a) one line per word; (b) line `k` is the line of the word at byte
offset `2k`; (c) every line has 2 to 19 characters; (d) the same image gives the same `out`; (e) images that agree
on a word agree on its line. -/
def Obligations.SuccessfulRunRendersEachWord : Prop :=
  ∀ bs : List Byte, bs.length % 2 = 0 →
    ∃ n t, runSteps n (boot bs) = .next t ∧ t.phase = .done ∧
      t.out.length = bs.length / 2 ∧
      (∀ (k : Nat) (hi lo : Byte), bs[2 * k]? = some hi → bs[2 * k + 1]? = some lo →
        t.out[k]? = some (render (fields (hi ++ lo)))) ∧
      (∀ line ∈ t.out, 2 ≤ line.length ∧ line.length ≤ 19) ∧
      ∀ (bs' : List Byte) (n' : Nat) (t' : State), bs'.length % 2 = 0 →
        runSteps n' (boot bs') = .next t' → t'.phase = .done →
        (bs = bs' → t'.out = t.out) ∧
        ∀ k, 2 * k + 1 < bs.length → bs[2 * k]? = bs'[2 * k]? → bs[2 * k + 1]? = bs'[2 * k + 1]? →
          t'.out[k]? = t.out[k]?

/-- An image of odd length: whatever its bytes are, the run ends by the error with nothing emitted, and two odd
images of one length cannot be told apart by anything the block gives (60_exceptions.md section 1; decision D4: no
line of the complete words). The run ends after 1 step; that the model answers the same state for every step after it
is its own choice, log entry 3. -/
def Obligations.OddImageBytesAreNeverObserved : Prop :=
  ∀ (bs bs' : List Byte) (k : Nat), bs.length % 2 = 1 → bs'.length = bs.length →
    ∃ t t', runSteps (k + 1) (boot bs) = .next t ∧ runSteps (k + 1) (boot bs') = .next t' ∧
      t.phase = .failed ∧ t.err = .sizedInput bs.length ∧ t.out = [] ∧ t.pos = 0 ∧
      t'.phase = t.phase ∧ t'.err = t.err ∧ t'.out = t.out ∧ t'.pos = t.pos

/-- The lines of two images joined are the lines of the one and then of the other, where the first has whole words:
no line depends on an earlier or a later word (10_state.md section 1, marked `[derived]`; 20_memory.md section 6). -/
def Obligations.LinesOfJoinedImages : Prop :=
  ∀ a b : List Byte, a.length % 2 = 0 → linesOf (a ++ b) = linesOf a ++ linesOf b

/-! ## The steps of the sequencer -/

/-- A step runs the decoded instruction: in phase Running, with the two bytes of a word at the cursor inside the
image, the step is `exec` of the instruction those bytes decode to; it is well-formed, and the step adds nothing
around it. -/
def Obligations.StepRunsDecodedInstruction : Prop :=
  ∀ (s : State) (hi lo : Byte) (rest : List Byte) (i : Instr),
    s.phase = .running → s.pos + 2 ≤ s.len →
    s.image.read s.pos = some hi → s.image.read (s.pos + 1) = some lo →
    decodeBytes (hi :: lo :: rest) = .ok (i, rest) →
    step s = exec i s ∧ i.wf = true

/-- R191, the word step: fetch two bytes big-endian, decode, render, emit the line, advance the cursor by 2. It
writes `out` and `pos` and nothing else, and it never raises. -/
def Obligations.WordStepFetchesRendersEmits : Prop :=
  ∀ (s : State) (hi lo : Byte),
    s.phase = .running → s.pos + 2 ≤ s.len →
    s.image.read s.pos = some hi → s.image.read (s.pos + 1) = some lo →
    step s = .next { s with out := s.out ++ [render (fields (hi ++ lo))], pos := s.pos + 2 }

/-- The start step on an odd length takes `SizedInputError` (46_pipeline_and_host.md section 2 and 60_exceptions.md
section 1; decisions D4 and D12): `err` holds the length, the phase is Failed, and nothing else is written. -/
def Obligations.StartStepTakesSizedInputError : Prop :=
  ∀ s : State, s.phase = .ready → s.len % 2 = 1 →
    step s = .next { s with err := .sizedInput s.len, phase := .failed }

/-- The start step on an even length begins the run and writes nothing else (46_pipeline_and_host.md section 2;
decision D4). -/
def Obligations.StartStepBeginsRun : Prop :=
  ∀ s : State, s.phase = .ready → s.len % 2 = 0 → step s = .next { s with phase := .running }

/-- The end step (46_pipeline_and_host.md section 2; decision D3): at the end of the image only the phase changes. -/
def Obligations.EndStepFinishesRun : Prop :=
  ∀ s : State, s.phase = .running → s.pos = s.len → step s = .next { s with phase := .done }

/-- In Done and Failed the state no longer changes (46_pipeline_and_host.md section 2). That a step of the model
answers the same state, where the spec enables none, is the model's choice (log entry 3). -/
def Obligations.TerminalPhasesKeepState : Prop :=
  ∀ s : State, s.phase = .done ∨ s.phase = .failed → ∀ k, runSteps k s = .next s

/-- Where the model stops: a word fetch that reaches past the end, or that finds no byte, and a cursor past the end.
Both are states no run reaches; the faults are the model's own (log entries 4 and 5). -/
def Obligations.FetchPastEndStops : Prop :=
  ∀ s : State, s.phase = .running →
    (s.pos < s.len → s.len < s.pos + 2 → step s = .fault (.readOutsideImage s.pos)) ∧
    (s.pos + 2 ≤ s.len → s.image.read s.pos = none ∨ s.image.read (s.pos + 1) = none →
      step s = .fault (.readOutsideImage s.pos)) ∧
    (s.len < s.pos → step s = .fault (.cursorPastEnd s.pos))

/-- R44: `MemRead(addr, 2)` and `MemRead(addr, 1)` are defined exactly inside the image, and every fetch of a run
lies inside it. -/
def Obligations.MemReadDefinedOnlyInsideImage : Prop :=
  (∀ (m : Memory) (a : Nat), m.wf →
    (a + 2 ≤ m.size → ∃ hi lo, m.read a = some hi ∧ m.read (a + 1) = some lo ∧ memRead2 m a = some (hi ++ lo)) ∧
    (m.size < a + 2 → memRead2 m a = none) ∧
    (a + 1 ≤ m.size → ∃ b, m.read a = some b ∧ memRead1 m a = some b) ∧
    (m.size < a + 1 → memRead1 m a = none)) ∧
  ∀ s : State, RunInvariant s → s.phase = .running → s.pos < s.len → s.pos + 2 ≤ s.len ∧ ∃ w, fetchWord s = some w

/-- R26: the image is a byte sequence indexed from 0 to L-1, given whole before the run, and read-only: no step
writes it, so every byte reads after a step as before. -/
def Obligations.ImageIsIndexedAndReadOnly : Prop :=
  (∀ (bs : List Byte) (k : Nat),
    (Memory.ofBytes bs).wf ∧ (Memory.ofBytes bs).size = bs.length ∧ (Memory.ofBytes bs).read k = bs[k]?) ∧
  ∀ s t : State, step s = .next t → t.image = s.image ∧ ∀ a, t.image.read a = s.image.read a

/-- R27: `out` only grows, by one line at its end; no element is removed or changed. -/
def Obligations.OutputListOnlyGrows : Prop :=
  ∀ s t : State, step s = .next t → t.out = s.out ∨ ∃ line, t.out = s.out ++ [line]

/-- The cursor (10_state.md section 2; decision D3): a step leaves it, or is a word step, which moves it by exactly
2 and emits exactly one line. -/
def Obligations.CursorMovesOnlyByWordStep : Prop :=
  ∀ s t : State, step s = .next t →
    (t.pos = s.pos ∧ t.out = s.out) ∨
    (s.phase = .running ∧ s.pos < s.len ∧ t.pos = s.pos + 2 ∧ t.out.length = s.out.length + 1)

/-- The error status (10_state.md section 2, decision D3; 60_exceptions.md section 4, decision D12): only the start
step on an odd length writes it, and no step clears it. -/
def Obligations.ErrorIsWrittenOnlyByStartStep : Prop :=
  ∀ s t : State, step s = .next t → t.err ≠ s.err →
    s.phase = .ready ∧ s.len % 2 = 1 ∧ t.err = .sizedInput s.len ∧ t.phase = .failed

/-- The phases (10_state.md section 2, decision D3): Ready goes to Running or Failed, Running stays while words are
left and goes to Done at the end, and Done and Failed are never left. -/
def Obligations.PhaseFollowsRunOrder : Prop :=
  ∀ s t : State, step s = .next t →
    (s.phase = .ready ∧ (t.phase = .running ∧ s.len % 2 = 0 ∨ t.phase = .failed ∧ s.len % 2 = 1)) ∨
    (s.phase = .running ∧ (t.phase = .running ∧ s.pos < s.len ∨ t.phase = .done ∧ s.pos = s.len)) ∨
    (s.phase = .done ∧ t.phase = .done) ∨ (s.phase = .failed ∧ t.phase = .failed)

/-- Every instruction produces one line, non-empty and fixed by the instruction alone, and nothing else: the image
(every byte of it), `err` and `phase` are unchanged (10_state.md R32). The cursor's advance by 2 is the word step's
(46_pipeline_and_host.md R191), and that `exec` completes in every phase, where the spec enables the word step in
Running alone, is the model's choice, log entry 10. -/
def Obligations.EveryInstructionOnlyEmitsItsLine : Prop :=
  ∀ i : Instr, ∃ line : Line, line ≠ [] ∧ ∀ s : State,
    exec i s = .next { s with out := s.out ++ [line], pos := s.pos + 2 }

/-- The word the host places is the one the next step runs (a convention of the model, log entry 7). -/
def Obligations.PlacedWordRunsNext : Prop :=
  ∀ (s : State) (w : Word),
    decodeTableWord 16 w.toNat = some (decodeWord w) ∧
    step (s.withFetchWord 16 w.toNat) = exec (decodeWord w) (s.withFetchWord 16 w.toNat)

/-! ## Encoding -/

/-- R41: the byte at the lower offset supplies the high bits, `word = image[pos] * 256 + image[pos+1]`: so the decoder
reads the next two bytes, and so does the fetch of a step. -/
def Obligations.WordsAreBigEndian : Prop :=
  (∀ (hi lo : Byte) (rest : List Byte),
    decodeBytes (hi :: lo :: rest) = .ok (decodeWord (hi ++ lo), rest) ∧
    (hi ++ lo : Word).toNat = hi.toNat * 256 + lo.toNat ∧
    (hi ++ lo : Word).extractLsb' 8 8 = hi ∧ (hi ++ lo : Word).extractLsb' 0 8 = lo) ∧
  ∀ (s : State) (hi lo : Byte), s.pos + 2 ≤ s.len → s.image.read s.pos = some hi →
    s.image.read (s.pos + 1) = some lo → fetchWord s = some (hi ++ lo)

/-- R91 to R98: the seven fields of every word, as the arithmetic forms the rules give, with the example of the
rules. -/
def Obligations.FieldsAreBitSlices : Prop :=
  (∀ w : Word,
    (fields w).opcodeClass.toNat = (w.toNat >>> 12) % 16 ∧ (fields w).x.toNat = (w.toNat >>> 8) % 16 ∧
    (fields w).y.toNat = (w.toNat >>> 4) % 16 ∧ (fields w).n.toNat = w.toNat % 16 ∧
    (fields w).kk.toNat = w.toNat % 256 ∧ (fields w).nnn.toNat = w.toNat % 4096 ∧
    (fields w).lowByte = (fields w).kk) ∧
  fields 0xABCD = { opcodeClass := 0xA, x := 0xB, y := 0xC, n := 0xD, kk := 0xCD, nnn := 0xBCD, lowByte := 0xCD }

/-- The relations between the fields (40_field_extractor.md section 3, marked `[derived]`): the wide fields are the
narrow ones joined, the word is the class and `nnn`, so `decode` is injective, and in class 0x0 the tests of CLS and
RET may be made on `nnn`. -/
def Obligations.FieldsDetermineWord : Prop :=
  (∀ w : Word,
    (fields w).kk = (fields w).y ++ (fields w).n ∧ (fields w).nnn = (fields w).x ++ (fields w).y ++ (fields w).n ∧
    (fields w).nnn = (fields w).x ++ (fields w).kk ∧ w = (fields w).opcodeClass ++ (fields w).nnn ∧
    ((fields w).opcodeClass = 0 → ((w = 0x00E0 ↔ (fields w).nnn = 0x0E0) ∧ (w = 0x00EE ↔ (fields w).nnn = 0x0EE)))) ∧
  ∀ v w : Word, fields v = fields w → v = w

/-- The word of every well-formed instruction decodes to that instruction, from a word and from bytes. The ignored
nibble of classes 0x5 and 0x9 and the unmapped word are operands of the instruction by the model's choice, log entry
9. -/
def Obligations.DecodeOfEncodeIsInstruction : Prop :=
  ∀ i : Instr, i.wf = true →
    decodeWord (encode i) = i ∧ ∀ rest, decodeBytes (encodeBytes i ++ rest) = .ok (i, rest)

/-- Every word decodes to a well-formed instruction whose encoding is that word: no bit of any of the 65536 words is
dropped, and none is refused. It gives every word back because the instructions of classes 0x5 and 0x9 carry the
ignored nibble and the fall-through instruction carries the word, which is the model's choice, log entry 9. -/
def Obligations.EncodeOfDecodeIsWord : Prop :=
  ∀ w : Word, (decodeWord w).wf = true ∧ encode (decodeWord w) = w

/-- The three readings of the opcode map agree on every word (30_encoding.md sections 5, 6 and 9; the agreement is
marked `[derived]` there, the arrangement is decision D7): the first matching row of the ROM, the instruction
decoded, and `render`. The cursor's advance by 2 is the word step's (46_pipeline_and_host.md R191), and that `exec`
completes in every phase, where the spec enables the word step in Running alone, is the model's choice, log entry
10. -/
def Obligations.RomAndDispatchAgree : Prop :=
  ∀ w : Word,
    (romSelect w).mid = midOf (decodeWord w) ∧ (romSelect w).line (fields w) = render (fields w) ∧
    ∀ s : State,
      exec (decodeWord w) s = .next { s with out := s.out ++ [(romSelect w).line (fields w)], pos := s.pos + 2 }

/-- R74: the low nibble of classes 0x5 and 0x9 is ignored; in class 0x0 every word but two is SYS; in classes 0xE
and 0xF the register takes no part in the selection. -/
def Obligations.IgnoredBitsDoNotSelect : Prop :=
  (∀ x y n n' : Nibble,
    render (fields (0x5#4 ++ x ++ y ++ n)) = render (fields (0x5#4 ++ x ++ y ++ n')) ∧
    render (fields (0x9#4 ++ x ++ y ++ n)) = render (fields (0x9#4 ++ x ++ y ++ n'))) ∧
  (∀ a : Imm12, a ≠ 0x0E0 → a ≠ 0x0EE →
    render (fields (0x0#4 ++ a)) = "SYS   ".toList ++ imm12 a ∧ midOf (decodeWord (0x0#4 ++ a)) = 2) ∧
  ∀ (x x' : Nibble) (b : Byte),
    midOf (decodeWord (0xE#4 ++ x ++ b)) = midOf (decodeWord (0xE#4 ++ x' ++ b)) ∧
    midOf (decodeWord (0xF#4 ++ x ++ b)) = midOf (decodeWord (0xF#4 ++ x' ++ b))

/-- Words written out from the encodings of 30_encoding.md R72, one or more per family, decode to the instructions
they stand for; fewer than two bytes hold no instruction (the names of the two refusals are the model's, log entry
9). -/
def Obligations.SampleWordsDecode : Prop :=
  decodeBytes [] = .error .noByte ∧ decodeBytes [0x12] = .error .danglingByte ∧
  decodeWord 0b0000000011100000 = .cls ∧ decodeWord 0b0000000011101110 = .ret ∧
  decodeWord 0b0000000111100000 = .sys 0x1E0 ∧ decodeWord 0b0001001000110100 = .jp 0x234 ∧
  decodeWord 0b0110101000000101 = .ldImm 10 0x05 ∧ decodeWord 0b0101000100101111 = .sneReg5 1 2 15 ∧
  decodeWord 0b1000000000010110 = .shr 0 1 ∧ decodeWord 0b1000000000011001 = .unmapped 0x8019 ∧
  decodeWord 0b1100101000010010 = .rnd 10 0x12 ∧ decodeWord 0b1101011110100011 = .drw 7 10 3 ∧
  decodeWord 0b1110101110100001 = .sknp 11 ∧ decodeWord 0b1111000101100101 = .ldXIind 1

/-! ## The rows: which words select the row, what the line is, and that the row does nothing else

The advance by 2 and completion in every phase are no part of a row's own rule, so these statements are derived: each
names R191 and log entry 10. -/

/-- R120, R121: CLS and RET, one word each, the bare name. The cursor's advance by 2 is the word step's
(46_pipeline_and_host.md R191), and that `exec` completes in every phase is the model's choice, log entry 10. -/
def Obligations.ClsAndRetRows : Prop :=
  ∀ (w : Word) (s : State),
    (decodeWord w = .cls ↔ w = 0x00E0) ∧
    exec .cls s = .next { s with out := s.out ++ ["CLS".toList], pos := s.pos + 2 } ∧
    (decodeWord w = .ret ↔ w = 0x00EE) ∧
    exec .ret s = .next { s with out := s.out ++ ["RET".toList], pos := s.pos + 2 }

/-- R122: SYS, every other word of class 0x0. The cursor's advance by 2 is the word step's (46_pipeline_and_host.md
R191), and that `exec` completes in every phase is the model's choice, log entry 10. -/
def Obligations.SysRow : Prop :=
  ∀ (w : Word) (a : Imm12) (s : State),
    (decodeWord w = .sys a ↔ w = 0x0#4 ++ a ∧ w ≠ 0x00E0 ∧ w ≠ 0x00EE) ∧
    exec (.sys a) s = .next { s with out := s.out ++ ["SYS   ".toList ++ imm12 a], pos := s.pos + 2 } ∧
    ("SYS   ".toList ++ imm12 a).length = 11

/-- R123, R124: JP and CALL. The cursor goes on to the next word: nothing jumps and nothing is called. The cursor's
advance by 2 is the word step's (46_pipeline_and_host.md R191), and that `exec` completes in every phase is the
model's choice, log entry 10. -/
def Obligations.JpAndCallRows : Prop :=
  ∀ (w : Word) (a : Imm12) (s : State),
    (decodeWord w = .jp a ↔ w = 0x1#4 ++ a) ∧
    exec (.jp a) s = .next { s with out := s.out ++ ["JP    ".toList ++ imm12 a], pos := s.pos + 2 } ∧
    (decodeWord w = .call a ↔ w = 0x2#4 ++ a) ∧
    exec (.call a) s = .next { s with out := s.out ++ ["CALL  ".toList ++ imm12 a], pos := s.pos + 2 } ∧
    ("JP    ".toList ++ imm12 a).length = 11 ∧ ("CALL  ".toList ++ imm12 a).length = 11

/-- R125, R126, R128, R129: SE, SNE, LD and ADD with an 8-bit immediate; the register is decimal. The cursor's advance
by 2 is the word step's (46_pipeline_and_host.md R191), and that `exec` completes in every phase is the model's
choice, log entry 10. -/
def Obligations.ByteImmediateRows : Prop :=
  ∀ (w : Word) (x : Nibble) (kk : Byte) (s : State),
    let operands := regdec x ++ ", ".toList ++ imm8 kk
    (6 + operands.length = if x ≤ 9 then 13 else 14) ∧
    (decodeWord w = .seImm x kk ↔ w = 0x3#4 ++ x ++ kk) ∧
    exec (.seImm x kk) s = .next { s with out := s.out ++ ["SE    ".toList ++ operands], pos := s.pos + 2 } ∧
    (decodeWord w = .sneImm x kk ↔ w = 0x4#4 ++ x ++ kk) ∧
    exec (.sneImm x kk) s = .next { s with out := s.out ++ ["SNE   ".toList ++ operands], pos := s.pos + 2 } ∧
    (decodeWord w = .ldImm x kk ↔ w = 0x6#4 ++ x ++ kk) ∧
    exec (.ldImm x kk) s = .next { s with out := s.out ++ ["LD    ".toList ++ operands], pos := s.pos + 2 } ∧
    (decodeWord w = .addImm x kk ↔ w = 0x7#4 ++ x ++ kk) ∧
    exec (.addImm x kk) s = .next { s with out := s.out ++ ["ADD   ".toList ++ operands], pos := s.pos + 2 }

/-- R127, R160: SNE with two registers, of class 0x5 (never SE) and of class 0x9; `n` is ignored, and the lines of the
two classes cannot be told apart. The cursor's advance by 2 is the word step's (46_pipeline_and_host.md R191), and
that `exec` completes in every phase is the model's choice, log entry 10. That the instruction carries the ignored
nibble is log entry 9. -/
def Obligations.SneRegisterRows : Prop :=
  ∀ (w : Word) (x y n : Nibble) (s : State),
    let line := "SNE   ".toList ++ regdec x ++ ", ".toList ++ regdec y
    (12 ≤ line.length ∧ line.length ≤ 14) ∧
    (decodeWord w = .sneReg5 x y n ↔ w = 0x5#4 ++ x ++ y ++ n) ∧
    exec (.sneReg5 x y n) s = .next { s with out := s.out ++ [line], pos := s.pos + 2 } ∧
    (decodeWord w = .sneReg9 x y n ↔ w = 0x9#4 ++ x ++ y ++ n) ∧
    exec (.sneReg9 x y n) s = .next { s with out := s.out ++ [line], pos := s.pos + 2 }

/-- R140 to R145, R147: LD, OR, AND, XOR, ADD, SUB and SUBN of class 0x8, selected by the low nibble alone; `x` is
printed before `y`, and nothing is computed. The cursor's advance by 2 is the word step's (46_pipeline_and_host.md
R191), and that `exec` completes in every phase is the model's choice, log entry 10. -/
def Obligations.ClassEightPlainRows : Prop :=
  ∀ (w : Word) (x y : Nibble) (s : State),
    let operands := regdec x ++ ", ".toList ++ regdec y
    (12 ≤ 6 + operands.length ∧ 6 + operands.length ≤ 14) ∧
    (decodeWord w = .ldReg x y ↔ w = 0x8#4 ++ x ++ y ++ 0x0#4) ∧
    exec (.ldReg x y) s = .next { s with out := s.out ++ ["LD    ".toList ++ operands], pos := s.pos + 2 } ∧
    (decodeWord w = .orReg x y ↔ w = 0x8#4 ++ x ++ y ++ 0x1#4) ∧
    exec (.orReg x y) s = .next { s with out := s.out ++ ["OR    ".toList ++ operands], pos := s.pos + 2 } ∧
    (decodeWord w = .andReg x y ↔ w = 0x8#4 ++ x ++ y ++ 0x2#4) ∧
    exec (.andReg x y) s = .next { s with out := s.out ++ ["AND   ".toList ++ operands], pos := s.pos + 2 } ∧
    (decodeWord w = .xorReg x y ↔ w = 0x8#4 ++ x ++ y ++ 0x3#4) ∧
    exec (.xorReg x y) s = .next { s with out := s.out ++ ["XOR   ".toList ++ operands], pos := s.pos + 2 } ∧
    (decodeWord w = .addReg x y ↔ w = 0x8#4 ++ x ++ y ++ 0x4#4) ∧
    exec (.addReg x y) s = .next { s with out := s.out ++ ["ADD   ".toList ++ operands], pos := s.pos + 2 } ∧
    (decodeWord w = .subReg x y ↔ w = 0x8#4 ++ x ++ y ++ 0x5#4) ∧
    exec (.subReg x y) s = .next { s with out := s.out ++ ["SUB   ".toList ++ operands], pos := s.pos + 2 } ∧
    (decodeWord w = .subn x y ↔ w = 0x8#4 ++ x ++ y ++ 0x7#4) ∧
    exec (.subn x y) s = .next { s with out := s.out ++ ["SUBN  ".toList ++ operands], pos := s.pos + 2 }

/-- R146, R148: SHR and SHL, the second register always printed, wrapped in literal braces (codes 0x7B and 0x7D). The
cursor's advance by 2 is the word step's (46_pipeline_and_host.md R191), and that `exec` completes in every phase is
the model's choice, log entry 10. -/
def Obligations.ShiftRowsPrintBraces : Prop :=
  ∀ (w : Word) (x y : Nibble) (s : State),
    let operands := regdec x ++ [Char.ofNat 0x7B] ++ ", ".toList ++ regdec y ++ [Char.ofNat 0x7D]
    (14 ≤ 6 + operands.length ∧ 6 + operands.length ≤ 16) ∧
    (decodeWord w = .shr x y ↔ w = 0x8#4 ++ x ++ y ++ 0x6#4) ∧
    exec (.shr x y) s = .next { s with out := s.out ++ ["SHR   ".toList ++ operands], pos := s.pos + 2 } ∧
    (decodeWord w = .shl x y ↔ w = 0x8#4 ++ x ++ y ++ 0xE#4) ∧
    exec (.shl x y) s = .next { s with out := s.out ++ ["SHL   ".toList ++ operands], pos := s.pos + 2 }

/-- R161, R162: LD I and JP V0, with literal first operands: `V0` is printed whatever bits 11:8 are. The cursor's
advance by 2 is the word step's (46_pipeline_and_host.md R191), and that `exec` completes in every phase is the
model's choice, log entry 10. -/
def Obligations.LoadIndexAndJumpV0Rows : Prop :=
  ∀ (w : Word) (a : Imm12) (s : State),
    (decodeWord w = .ldI a ↔ w = 0xA#4 ++ a) ∧
    exec (.ldI a) s = .next { s with out := s.out ++ ["LD    I, ".toList ++ imm12 a], pos := s.pos + 2 } ∧
    (decodeWord w = .jpV0 a ↔ w = 0xB#4 ++ a) ∧
    exec (.jpV0 a) s = .next { s with out := s.out ++ ["JP    V0, ".toList ++ imm12 a], pos := s.pos + 2 } ∧
    ("LD    I, ".toList ++ imm12 a).length = 14 ∧ ("JP    V0, ".toList ++ imm12 a).length = 15

/-- RND (44_class_9_to_D.md, the second quirk): the register is one hexadecimal digit. Its being uppercase is decision
D6 of the spec; the advance by 2 is the word step's (46_pipeline_and_host.md R191), and `exec` completing in every
phase is log entry 10. -/
def Obligations.RndRowPrintsHexRegister : Prop :=
  ∀ (w : Word) (x : Nibble) (kk : Byte) (s : State),
    let line := "RND   V".toList ++ [hexdigit x] ++ ", ".toList ++ imm8 kk
    (decodeWord w = .rnd x kk ↔ w = 0xC#4 ++ x ++ kk) ∧
    exec (.rnd x kk) s = .next { s with out := s.out ++ [line], pos := s.pos + 2 } ∧ line.length = 13

/-- R164: DRW, the nibble in two digits. The cursor's advance by 2 is the word step's (46_pipeline_and_host.md R191),
and that `exec` completes in every phase is the model's choice, log entry 10. -/
def Obligations.DrwRow : Prop :=
  ∀ (w : Word) (x y n : Nibble) (s : State),
    let line := "DRW   ".toList ++ regdec x ++ ", ".toList ++ regdec y ++ ", #0".toList ++ [hexdigit n]
    (decodeWord w = .drw x y n ↔ w = 0xD#4 ++ x ++ y ++ n) ∧
    exec (.drw x y n) s = .next { s with out := s.out ++ [line], pos := s.pos + 2 } ∧
    17 ≤ line.length ∧ line.length ≤ 19

/-- R170, R171: SKP and SKNP; nothing is skipped. The cursor's advance by 2 is the word step's
(46_pipeline_and_host.md R191), and that `exec` completes in every phase is the model's choice, log entry 10. -/
def Obligations.SkipKeyRows : Prop :=
  ∀ (w : Word) (x : Nibble) (s : State),
    (6 + (regdec x).length = if x ≤ 9 then 8 else 9) ∧
    (decodeWord w = .skp x ↔ w = 0xE#4 ++ x ++ 0x9E#8) ∧
    exec (.skp x) s = .next { s with out := s.out ++ ["SKP   ".toList ++ regdec x], pos := s.pos + 2 } ∧
    (decodeWord w = .sknp x ↔ w = 0xE#4 ++ x ++ 0xA1#8) ∧
    exec (.sknp x) s = .next { s with out := s.out ++ ["SKNP  ".toList ++ regdec x], pos := s.pos + 2 }

/-- R173, R174, R181: the class-0xF rows whose literal stands second. The cursor's advance by 2 is the word step's
(46_pipeline_and_host.md R191), and that `exec` completes in every phase is the model's choice, log entry 10. -/
def Obligations.RegisterThenLiteralRows : Prop :=
  ∀ (w : Word) (x : Nibble) (s : State),
    let reg := "LD    ".toList ++ regdec x
    (reg.length = if x ≤ 9 then 8 else 9) ∧
    (decodeWord w = .ldXDt x ↔ w = 0xF#4 ++ x ++ 0x07#8) ∧
    exec (.ldXDt x) s = .next { s with out := s.out ++ [reg ++ ", DT".toList], pos := s.pos + 2 } ∧
    (decodeWord w = .ldXK x ↔ w = 0xF#4 ++ x ++ 0x0A#8) ∧
    exec (.ldXK x) s = .next { s with out := s.out ++ [reg ++ ", K".toList], pos := s.pos + 2 } ∧
    (decodeWord w = .ldXIind x ↔ w = 0xF#4 ++ x ++ 0x65#8) ∧
    exec (.ldXIind x) s = .next { s with out := s.out ++ [reg ++ ", [I]".toList], pos := s.pos + 2 }

/-- R175 to R180: the class-0xF rows whose literal stands first. The cursor's advance by 2 is the word step's
(46_pipeline_and_host.md R191), and that `exec` completes in every phase is the model's choice, log entry 10. -/
def Obligations.LiteralThenRegisterRows : Prop :=
  ∀ (w : Word) (x : Nibble) (s : State),
    ((regdec x).length = if x ≤ 9 then 2 else 3) ∧
    (decodeWord w = .ldDtX x ↔ w = 0xF#4 ++ x ++ 0x15#8) ∧
    exec (.ldDtX x) s = .next { s with out := s.out ++ ["LD    DT, ".toList ++ regdec x], pos := s.pos + 2 } ∧
    (decodeWord w = .ldStX x ↔ w = 0xF#4 ++ x ++ 0x18#8) ∧
    exec (.ldStX x) s = .next { s with out := s.out ++ ["LD    ST, ".toList ++ regdec x], pos := s.pos + 2 } ∧
    (decodeWord w = .addIX x ↔ w = 0xF#4 ++ x ++ 0x1E#8) ∧
    exec (.addIX x) s = .next { s with out := s.out ++ ["ADD   I, ".toList ++ regdec x], pos := s.pos + 2 } ∧
    (decodeWord w = .ldFX x ↔ w = 0xF#4 ++ x ++ 0x29#8) ∧
    exec (.ldFX x) s = .next { s with out := s.out ++ ["LD    F, ".toList ++ regdec x], pos := s.pos + 2 } ∧
    (decodeWord w = .ldBX x ↔ w = 0xF#4 ++ x ++ 0x33#8) ∧
    exec (.ldBX x) s = .next { s with out := s.out ++ ["LD    B, ".toList ++ regdec x], pos := s.pos + 2 } ∧
    (decodeWord w = .ldIindX x ↔ w = 0xF#4 ++ x ++ 0x55#8) ∧
    exec (.ldIindX x) s = .next { s with out := s.out ++ ["LD    [I], ".toList ++ regdec x], pos := s.pos + 2 }

/-- R149, R172, R182: exactly these words are unmapped, and their line is the two-character placeholder. The cursor's
advance by 2 is the word step's (46_pipeline_and_host.md R191), and that `exec` completes in every phase is the
model's choice, log entry 10. That the instruction carries the word is log entry 9. -/
def Obligations.UnmappedRow : Prop :=
  ∀ (w v : Word) (s : State),
    (decodeWord w = .unmapped v ↔ v = w ∧
      ((∃ x y n : Nibble, n ∈ [0x8#4, 0x9#4, 0xA#4, 0xB#4, 0xC#4, 0xD#4, 0xF#4] ∧ w = 0x8#4 ++ x ++ y ++ n) ∨
       (∃ (x : Nibble) (b : Byte), b ∉ [0x9E#8, 0xA1#8] ∧ w = 0xE#4 ++ x ++ b) ∨
       (∃ (x : Nibble) (b : Byte),
         b ∉ [0x07#8, 0x0A#8, 0x15#8, 0x18#8, 0x1E#8, 0x29#8, 0x33#8, 0x55#8, 0x65#8] ∧ w = 0xF#4 ++ x ++ b))) ∧
    exec (.unmapped v) s = .next { s with out := s.out ++ ["??".toList], pos := s.pos + 2 }

/-- R212: an unmapped word is not an exception. It leaves `err` and the phase alone and the run goes on; a successful
run may consist of `??` lines only. -/
def Obligations.UnmappedWordIsNoException : Prop :=
  (∀ (s : State) (hi lo : Byte),
    s.phase = .running → s.pos + 2 ≤ s.len →
    s.image.read s.pos = some hi → s.image.read (s.pos + 1) = some lo → isUnmapped (hi ++ lo) = true →
    step s = .next { s with out := s.out ++ ["??".toList], pos := s.pos + 2 }) ∧
  ∀ (words : List Word), (∀ w ∈ words, isUnmapped w = true) →
    disassemble (words.flatMap bytesOfWord) = .ok (List.replicate words.length "??".toList)

/-! ## Formatting, and lines as a whole -/

/-- R101: the name column. -/
def Obligations.NameColumnIsSixWide : Prop :=
  ∀ name : Line, name.length ≤ 6 →
    pad6 name = name ++ List.replicate (6 - name.length) ' ' ∧ (pad6 name).length = 6

/-- R102, R103, R104: the sixteen digits; the decimal numeral of a register index, which reads back as the index and
has no leading zero; the register operand. -/
def Obligations.RegisterOperandIsDecimal : Prop :=
  (List.range 16).map (fun d => hexdigit (BitVec.ofNat 4 d)) = "0123456789ABCDEF".toList ∧
  ∀ i : Nibble,
    numeralValue 10 (dec i) = some i.toNat ∧ (∀ c ∈ dec i, c ∈ "0123456789".toList) ∧
    (dec i = if i ≤ 9 then [hexdigit i] else ['1', hexdigit (i - 10)]) ∧
    regdec i = 'V' :: dec i ∧ ((regdec i).length = if i ≤ 9 then 2 else 3)

/-- R106, R107, R108: an immediate is `#` and exactly two or four uppercase hexadecimal digits that read back as the
value; a 12-bit value and the nibble of DRW begin with the digit `0`. -/
def Obligations.ImmediateReadsBack : Prop :=
  (∀ v : Byte, ∃ d1 d0, imm8 v = ['#', d1, d0] ∧ numeralValue 16 [d1, d0] = some v.toNat) ∧
  (∀ v : Imm12, ∃ d2 d1 d0, imm12 v = ['#', '0', d2, d1, d0] ∧ numeralValue 16 ['0', d2, d1, d0] = some v.toNat) ∧
  ∀ v : Nibble, ∃ d0, imm4as8 v = ['#', '0', d0] ∧ numeralValue 16 ['0', d0] = some v.toNat

/-- R110: the name is padded only when operands follow it; CLS and RET are bare, `??` is never padded, and every
other line is one of the names, padded, and a non-empty operand text. -/
def Obligations.NamePaddedOnlyBeforeOperands : Prop :=
  ∀ w : Word,
    (w = 0x00E0 ∧ render (fields w) = "CLS".toList) ∨ (w = 0x00EE ∧ render (fields w) = "RET".toList) ∨
    (isUnmapped w = true ∧ render (fields w) = "??".toList) ∨
    (w ≠ 0x00E0 ∧ w ≠ 0x00EE ∧ isUnmapped w = false ∧
      ∃ name ∈ paddedNames, ∃ c ops, c ≠ ' ' ∧ render (fields w) = pad6 name ++ c :: ops)

/-- The lines as a whole (41_render_format.md section 3; lengths marked `[derived]`, codes by decision D5): every
line has 2 to 19 characters, uses only the listed characters, and neither begins nor ends with a space. -/
def Obligations.LinesUseListedCharacters : Prop :=
  ∀ w : Word,
    2 ≤ (render (fields w)).length ∧ (render (fields w)).length ≤ 19 ∧
    (∀ c ∈ render (fields w), isLineChar c = true) ∧
    (render (fields w)).head? ≠ some ' ' ∧ (render (fields w)).getLast? ≠ some ' '

/-- U2's ports (41_render_format.md section 1; decisions D1 and D2): the selected row, the length of the line and its
characters. That an entry of `line_char` holds the character's number is decision D5, the model's log entry 8; nothing
is said of the entries at and beyond the length (log entry 6). -/
def Obligations.MapperPortsCarryLine : Prop :=
  ∀ w : Word,
    (mapperPorts w).mid.toNat = (romSelect w).mid ∧ (romSelect w).mid ≤ 35 ∧
    (mapperPorts w).lineLen.toNat = (render (fields w)).length ∧
    ∀ (k : Nat) (hk : k < 19) (c : Char), (render (fields w))[k]? = some c →
      ((mapperPorts w).lineChar[k]'hk).toNat = c.toNat

/-! ## The host -/

/-- The text artifact (46_pipeline_and_host.md section 4; decisions D5 and D10): no line holds a newline, so the text
has one newline per line, ends with one, and determines the lines; no line gives the empty text. -/
def Obligations.TextArtifactSplitsBack : Prop :=
  (∀ w : Word, newline ∉ render (fields w)) ∧ textOf [] = [] ∧
  ∀ out : List Line, (∀ line ∈ out, newline ∉ line) →
    (textOf out).count newline = out.length ∧
    (out ≠ [] → (textOf out).getLast? = some newline) ∧
    ∀ out' : List Line, (∀ line ∈ out', newline ∉ line) → textOf out = textOf out' → out = out'

/-- R203: the output path is the second argument, or the input path with its last three characters replaced by `asm`,
with no look at what they are. -/
def Obligations.OutputPathReplacesLastThree : Prop :=
  (∀ (input path : Line), outputPath input (some path) = some path) ∧
  (∀ (stem : Line) (a b c : Char), outputPath (stem ++ [a, b, c]) none = some (stem ++ "asm".toList)) ∧
  outputPath "prog.ch8".toList none = some "prog.asm".toList ∧
  outputPath "game.rom".toList none = some "game.asm".toList ∧
  outputPath "notes".toList none = some "noasm".toList

/-- The host's use of the block (46_pipeline_and_host.md section 4, decisions D3 and D4; 60_exceptions.md section 3,
decision D11): it collects only when the run is over, and what it collects from the machine's run is what `hostRun`
reports; a read error starts no run, a write error comes after it, and an odd length is reported whether or not the
artifact could be written. For an odd length the run is over after 1 step, and that the further steps counted here
answer the same state is the model's choice, log entry 3. -/
def Obligations.HostCollectsRunResult : Prop :=
  (∀ s : State, collect s ≠ none → terminal s = true) ∧
  (∀ bs : List Byte, ∃ t, runSteps (bs.length / 2 + 2) (boot bs) = .next t ∧
    collect t = some (hostRun (some bs) true)) ∧
  (∀ writable, hostRun none writable = .ioError) ∧
  (∀ bs : List Byte, hostRun (some bs) false =
    if bs.length % 2 = 1 then .sizedInputError bs.length else .ioError)
end

