-- ==== Sys2Proof/Laws/Bits.lean ====
section
/-! SUPPORT. Words as numbers: the value of a concatenation, the fields of a word written as one, and a word as the
concatenation of its fields (spec 40_field_extractor.md R99). -/

namespace Sys2Proof

/-- Concatenation places the left operand in the high bits (00_scope.md R12). -/
theorem toNat_concat {m n : Nat} (a : BitVec m) (b : BitVec n) : (a ++ b).toNat = a.toNat * 2 ^ n + b.toNat := by
  rw [BitVec.toNat_append, Nat.shiftLeft_eq, Nat.mul_comm, Nat.two_pow_add_eq_or_of_lt b.isLt]

theorem toNat_class_imm12 (c : Nibble) (a : Imm12) :
    BitVec.toNat (c ++ a : Word) = c.toNat * 4096 + a.toNat := toNat_concat c a

theorem toNat_nibble_byte (x : Nibble) (k : Byte) :
    BitVec.toNat (x ++ k : Imm12) = x.toNat * 256 + k.toNat := toNat_concat x k

theorem toNat_nibble_nibble (y n : Nibble) :
    BitVec.toNat (y ++ n : Byte) = y.toNat * 16 + n.toNat := toNat_concat y n

theorem toNat_byte_byte (hi lo : Byte) :
    BitVec.toNat (hi ++ lo : Word) = hi.toNat * 256 + lo.toNat := toNat_concat hi lo

theorem toNat_class_x_byte (c x : Nibble) (k : Byte) :
    BitVec.toNat (c ++ x ++ k : Word) = c.toNat * 4096 + x.toNat * 256 + k.toNat := by
  refine (toNat_concat (c ++ x) k).trans ?_
  rw [toNat_concat]; omega

theorem toNat_nibbles (c x y n : Nibble) :
    BitVec.toNat (c ++ x ++ y ++ n : Word) = c.toNat * 4096 + x.toNat * 256 + y.toNat * 16 + n.toNat := by
  refine (toNat_concat (c ++ x ++ y) n).trans ?_
  rw [toNat_concat, toNat_concat]; omega

/-- The fields of a word, as numbers (40_field_extractor.md R91 to R97, "equally"). -/
theorem fields_toNat (w : Word) :
    (fields w).opcodeClass.toNat = w.toNat / 4096 ∧ (fields w).x.toNat = w.toNat / 256 % 16 ∧
    (fields w).y.toNat = w.toNat / 16 % 16 ∧ (fields w).n.toNat = w.toNat % 16 ∧
    (fields w).kk.toNat = w.toNat % 256 ∧ (fields w).nnn.toNat = w.toNat % 4096 ∧
    (fields w).lowByte.toNat = w.toNat % 256 := by
  have h := w.isLt
  simp only [fields, BitVec.extractLsb'_toNat, Nat.shiftRight_eq_div_pow]
  refine ⟨?_, ?_, ?_, ?_, ?_, ?_, ?_⟩ <;> first | trivial | omega

/-- The fields of a word written as a class and a 12-bit immediate. -/
theorem fields_class_imm12 (c : Nibble) (a : Imm12) :
    (fields (c ++ a)).opcodeClass = c ∧ (fields (c ++ a)).nnn = a := by
  have h := fields_toNat (c ++ a)
  rw [toNat_class_imm12] at h
  have hc := c.isLt
  have ha := a.isLt
  constructor <;> apply BitVec.eq_of_toNat_eq <;> omega

/-- The fields of a word written as a class, a register and a byte. -/
theorem fields_class_x_byte (c x : Nibble) (k : Byte) :
    (fields (c ++ x ++ k)).opcodeClass = c ∧ (fields (c ++ x ++ k)).x = x ∧ (fields (c ++ x ++ k)).kk = k ∧
    (fields (c ++ x ++ k)).lowByte = k := by
  have h := fields_toNat (c ++ x ++ k)
  rw [toNat_class_x_byte] at h
  have hc := c.isLt
  have hx := x.isLt
  have hk := k.isLt
  refine ⟨?_, ?_, ?_, ?_⟩ <;> apply BitVec.eq_of_toNat_eq <;> omega

/-- The fields of a word written as four nibbles. -/
theorem fields_nibbles (c x y n : Nibble) :
    (fields (c ++ x ++ y ++ n)).opcodeClass = c ∧ (fields (c ++ x ++ y ++ n)).x = x ∧
    (fields (c ++ x ++ y ++ n)).y = y ∧ (fields (c ++ x ++ y ++ n)).n = n := by
  have h := fields_toNat (c ++ x ++ y ++ n)
  rw [toNat_nibbles] at h
  have hc := c.isLt
  have hx := x.isLt
  have hy := y.isLt
  have hn := n.isLt
  refine ⟨?_, ?_, ?_, ?_⟩ <;> apply BitVec.eq_of_toNat_eq <;> omega

/-- A word is its class and its 12-bit field. -/
theorem word_eq_class_imm12 (w : Word) : w = (fields w).opcodeClass ++ (fields w).nnn := by
  have h := fields_toNat w
  have hw := w.isLt
  apply BitVec.eq_of_toNat_eq
  rw [toNat_class_imm12]; omega

/-- A word is its class, its first register and its low byte. -/
theorem word_eq_class_x_byte (w : Word) : w = (fields w).opcodeClass ++ (fields w).x ++ (fields w).lowByte := by
  have h := fields_toNat w
  have hw := w.isLt
  apply BitVec.eq_of_toNat_eq
  rw [toNat_class_x_byte]; omega

/-- A word is its four nibbles. -/
theorem word_eq_nibbles (w : Word) :
    w = (fields w).opcodeClass ++ (fields w).x ++ (fields w).y ++ (fields w).n := by
  have h := fields_toNat w
  have hw := w.isLt
  apply BitVec.eq_of_toNat_eq
  rw [toNat_nibbles]; omega

/-- The sixteenth class is what is left when the other fifteen are excluded (the last arm of `select` and
`render`). -/
theorem nibble_eq_F_of_ne (c : Nibble) (h0 : c ≠ 0x0#4) (h1 : c ≠ 0x1#4) (h2 : c ≠ 0x2#4) (h3 : c ≠ 0x3#4)
    (h4 : c ≠ 0x4#4) (h5 : c ≠ 0x5#4) (h6 : c ≠ 0x6#4) (h7 : c ≠ 0x7#4) (h8 : c ≠ 0x8#4) (h9 : c ≠ 0x9#4)
    (hA : c ≠ 0xA#4) (hB : c ≠ 0xB#4) (hC : c ≠ 0xC#4) (hD : c ≠ 0xD#4) (hE : c ≠ 0xE#4) : c = 0xF#4 := by
  bv_omega

/-- The two byte views of the low half agree (R97). -/
theorem fields_kk_eq_lowByte (w : Word) : (fields w).kk = (fields w).lowByte := rfl

end Sys2Proof
end

