-- ==== Sys2Proof/Laws/State.lean ====
section
/-! SUPPORT. One lemma per field per state update, so that no proof unfolds a record update. -/

namespace Sys2Proof.Machine

@[simp] theorem emit_image (l : Line) (s : State) : (emit l s).image = s.image := rfl
@[simp] theorem emit_pos (l : Line) (s : State) : (emit l s).pos = s.pos := rfl
@[simp] theorem emit_out (l : Line) (s : State) : (emit l s).out = s.out ++ [l] := rfl
@[simp] theorem emit_err (l : Line) (s : State) : (emit l s).err = s.err := rfl
@[simp] theorem emit_phase (l : Line) (s : State) : (emit l s).phase = s.phase := rfl
@[simp] theorem emit_len (l : Line) (s : State) : (emit l s).len = s.len := rfl

@[simp] theorem advance_image (s : State) : (advance s).image = s.image := rfl
@[simp] theorem advance_pos (s : State) : (advance s).pos = s.pos + 2 := rfl
@[simp] theorem advance_out (s : State) : (advance s).out = s.out := rfl
@[simp] theorem advance_err (s : State) : (advance s).err = s.err := rfl
@[simp] theorem advance_phase (s : State) : (advance s).phase = s.phase := rfl
@[simp] theorem advance_len (s : State) : (advance s).len = s.len := rfl

@[simp] theorem raiseSizedInputError_image (s : State) : (raiseSizedInputError s).image = s.image := rfl
@[simp] theorem raiseSizedInputError_pos (s : State) : (raiseSizedInputError s).pos = s.pos := rfl
@[simp] theorem raiseSizedInputError_out (s : State) : (raiseSizedInputError s).out = s.out := rfl
@[simp] theorem raiseSizedInputError_err (s : State) : (raiseSizedInputError s).err = .sizedInput s.len := rfl
@[simp] theorem raiseSizedInputError_phase (s : State) : (raiseSizedInputError s).phase = .failed := rfl
@[simp] theorem raiseSizedInputError_len (s : State) : (raiseSizedInputError s).len = s.len := rfl

@[simp] theorem endStep_image (s : State) : (endStep s).image = s.image := rfl
@[simp] theorem endStep_pos (s : State) : (endStep s).pos = s.pos := rfl
@[simp] theorem endStep_out (s : State) : (endStep s).out = s.out := rfl
@[simp] theorem endStep_err (s : State) : (endStep s).err = s.err := rfl
@[simp] theorem endStep_phase (s : State) : (endStep s).phase = .done := rfl
@[simp] theorem endStep_len (s : State) : (endStep s).len = s.len := rfl

@[simp] theorem resetBlock_image (s : State) : (resetBlock s).image = s.image := rfl
@[simp] theorem resetBlock_pos (s : State) : (resetBlock s).pos = 0 := rfl
@[simp] theorem resetBlock_out (s : State) : (resetBlock s).out = [] := rfl
@[simp] theorem resetBlock_err (s : State) : (resetBlock s).err = .none := rfl
@[simp] theorem resetBlock_phase (s : State) : (resetBlock s).phase = .ready := rfl
@[simp] theorem resetBlock_len (s : State) : (resetBlock s).len = s.len := rfl

@[simp] theorem loadImage_image (bs : List Byte) (s : State) : (loadImage bs s).image = .ofBytes bs := rfl
@[simp] theorem loadImage_pos (bs : List Byte) (s : State) : (loadImage bs s).pos = s.pos := rfl
@[simp] theorem loadImage_out (bs : List Byte) (s : State) : (loadImage bs s).out = s.out := rfl
@[simp] theorem loadImage_err (bs : List Byte) (s : State) : (loadImage bs s).err = s.err := rfl
@[simp] theorem loadImage_phase (bs : List Byte) (s : State) : (loadImage bs s).phase = s.phase := rfl

/-- The start step writes neither the image, nor `pos`, nor `out`. -/
@[simp] theorem startStep_image (s : State) : (startStep s).image = s.image := by
  unfold startStep; split <;> rfl
@[simp] theorem startStep_pos (s : State) : (startStep s).pos = s.pos := by
  unfold startStep; split <;> rfl
@[simp] theorem startStep_out (s : State) : (startStep s).out = s.out := by
  unfold startStep; split <;> rfl
@[simp] theorem startStep_len (s : State) : (startStep s).len = s.len := by
  unfold startStep; split <;> rfl

theorem startStep_of_odd {s : State} (h : s.len % 2 = 1) : startStep s = raiseSizedInputError s := by
  simp [startStep, lengthIsOdd, h]

theorem startStep_of_even {s : State} (h : s.len % 2 = 0) : startStep s = { s with phase := .running } := by
  simp [startStep, lengthIsOdd, h]

end Sys2Proof.Machine
end

