-- ==== Sys2Proof/Laws/Exec.lean ====
section
/-! SUPPORT. Everything an instruction can do (spec 10_state.md R32: one line and nothing else), and everything a
step can do (46_pipeline_and_host.md R191 to R194). -/

namespace Sys2Proof.Machine

/-- The line of an instruction, row by row. -/
def lineOf : Instr → Line
  | .cls => lineCls
  | .ret => lineRet
  | .sys nnn => lineSys nnn
  | .jp nnn => lineJp nnn
  | .call nnn => lineCall nnn
  | .seImm x kk => lineSeImm x kk
  | .sneImm x kk => lineSneImm x kk
  | .sneReg5 x y _ => lineSneReg5 x y
  | .ldImm x kk => lineLdImm x kk
  | .addImm x kk => lineAddImm x kk
  | .ldReg x y => lineLdReg x y
  | .orReg x y => lineOrReg x y
  | .andReg x y => lineAndReg x y
  | .xorReg x y => lineXorReg x y
  | .addReg x y => lineAddReg x y
  | .subReg x y => lineSubReg x y
  | .shr x y => lineShr x y
  | .subn x y => lineSubn x y
  | .shl x y => lineShl x y
  | .sneReg9 x y _ => lineSneReg9 x y
  | .ldI nnn => lineLdI nnn
  | .jpV0 nnn => lineJpV0 nnn
  | .rnd x kk => lineRnd x kk
  | .drw x y n => lineDrw x y n
  | .skp x => lineSkp x
  | .sknp x => lineSknp x
  | .ldXDt x => lineLdXDt x
  | .ldXK x => lineLdXK x
  | .ldDtX x => lineLdDtX x
  | .ldStX x => lineLdStX x
  | .addIX x => lineAddIX x
  | .ldFX x => lineLdFX x
  | .ldBX x => lineLdBX x
  | .ldIindX x => lineLdIindX x
  | .ldXIind x => lineLdXIind x
  | .unmapped _ => lineUnmapped

/-- Every instruction emits its line and goes on to the next word. -/
theorem exec_eq_emitLine (i : Instr) (s : State) : exec i s = emitLine (lineOf i) s := by
  cases i <;> rfl

theorem exec_eq_next (i : Instr) (s : State) : exec i s = .next (advance (emit (lineOf i) s)) :=
  exec_eq_emitLine i s

/-- The word step where the fetch is defined. -/
theorem wordStep_of_fetch {s : State} {w : Word} (h : fetchWord s = some w) :
    wordStep s = exec (decodeWord w) s := by
  simp [wordStep, h]

theorem step_ready {s : State} (h : s.phase = .ready) : step s = .next (startStep s) := by
  simp [step, sequencerStep, h]

theorem step_running {s : State} (h : s.phase = .running) : step s = runningStep s := by
  simp [step, sequencerStep, h]

theorem step_done {s : State} (h : s.phase = .done) : step s = .next s := by
  simp [step, sequencerStep, h]

theorem step_failed {s : State} (h : s.phase = .failed) : step s = .next s := by
  simp [step, sequencerStep, h]

theorem step_word {s : State} {w : Word} (h : s.phase = .running) (hp : s.pos < s.len)
    (hf : fetchWord s = some w) : step s = exec (decodeWord w) s := by
  rw [step_running h, runningStep, if_pos hp, wordStep_of_fetch hf]

theorem step_end {s : State} (h : s.phase = .running) (hp : s.pos = s.len) : step s = .next (endStep s) := by
  rw [step_running h, runningStep, if_neg (by omega), if_pos hp]

/-- Everything a step that answers a next state can do: the start step, a word step, the end step, or, in a
terminal phase, nothing. -/
theorem step_next_cases {s t : State} (h : step s = .next t) :
    (s.phase = .ready ∧ t = startStep s) ∨
    (s.phase = .running ∧ s.pos < s.len ∧
      ∃ w, fetchWord s = some w ∧ t = advance (emit (lineOf (decodeWord w)) s)) ∨
    (s.phase = .running ∧ s.pos = s.len ∧ t = endStep s) ∨
    ((s.phase = .done ∨ s.phase = .failed) ∧ t = s) := by
  cases hp : s.phase with
  | ready =>
    rw [step_ready hp] at h
    exact .inl ⟨rfl, by injection h with h; exact h.symm⟩
  | running =>
    rw [step_running hp, runningStep] at h
    split at h
    · rename_i hlt
      unfold wordStep at h
      split at h
      · rename_i w hw
        rw [exec_eq_next] at h
        injection h with h
        exact .inr (.inl ⟨rfl, hlt, w, hw, h.symm⟩)
      · cases h
    · split at h
      · rename_i heq
        injection h with h
        exact .inr (.inr (.inl ⟨rfl, heq, h.symm⟩))
      · cases h
  | done =>
    rw [step_done hp] at h
    exact .inr (.inr (.inr ⟨.inl rfl, by injection h with h; exact h.symm⟩))
  | failed =>
    rw [step_failed hp] at h
    exact .inr (.inr (.inr ⟨.inr rfl, by injection h with h; exact h.symm⟩))

end Sys2Proof.Machine
end

