-- ==== Sys2Proof/Laws/Memory.lean ====
section
/-! SUPPORT. The image: every operation gives the canonical form, and reading a loaded image reads its bytes. -/

namespace Sys2Proof.Machine

@[simp] theorem ofBytesFrom_length (base : Nat) (bs : List Byte) :
    (Memory.ofBytesFrom base bs).length = bs.length := by
  induction bs generalizing base with
  | nil => rfl
  | cons b bs ih => simp [Memory.ofBytesFrom, ih]

@[simp] theorem ofBytes_size (bs : List Byte) : (Memory.ofBytes bs).size = bs.length :=
  ofBytesFrom_length 0 bs

theorem ofBytesFrom_offsets (base : Nat) (bs : List Byte) :
    (Memory.ofBytesFrom base bs).map Prod.fst = List.range' base bs.length := by
  induction bs generalizing base with
  | nil => rfl
  | cons b bs ih => simp [Memory.ofBytesFrom, ih, List.range'_succ]

/-- Loading an image gives the canonical form. -/
theorem ofBytes_wf (bs : List Byte) : (Memory.ofBytes bs).wf := by
  rw [Memory.wf, ofBytes_size, List.range_eq_range']
  exact ofBytesFrom_offsets 0 bs

/-- Placing a word gives the canonical form, whatever the image was. -/
theorem placeWord_wf (m : Memory) (addr : Nat) (w : Word) : (m.placeWord addr w).wf := ofBytes_wf _

@[simp] theorem ofBytesFrom_bytes (base : Nat) (bs : List Byte) :
    (Memory.ofBytesFrom base bs).bytes = bs := by
  induction bs generalizing base with
  | nil => rfl
  | cons b bs ih =>
    have h := ih (base + 1)
    simp only [Memory.bytes] at h
    simp [Memory.ofBytesFrom, Memory.bytes, h]

@[simp] theorem ofBytes_bytes (bs : List Byte) : (Memory.ofBytes bs).bytes = bs := ofBytesFrom_bytes 0 bs

@[simp] theorem bytes_length (m : Memory) : m.bytes.length = m.size := by simp [Memory.bytes, Memory.size]

theorem lookup_ofBytesFrom (base k : Nat) (bs : List Byte) :
    (Memory.ofBytesFrom base bs).lookup (base + k) = bs[k]? := by
  induction bs generalizing base k with
  | nil => rfl
  | cons b bs ih =>
    cases k with
    | zero => simp [Memory.ofBytesFrom]
    | succ k =>
      have h : (base + (k + 1) == base) = false := by simp
      have h' : base + (k + 1) = base + 1 + k := by omega
      rw [Memory.ofBytesFrom, List.lookup_cons, h, h']
      simpa using ih (base + 1) k

/-- Reading a loaded image at an offset reads its byte there, and nothing outside. -/
theorem read_ofBytes (bs : List Byte) (k : Nat) : (Memory.ofBytes bs).read k = bs[k]? := by
  have h := lookup_ofBytesFrom 0 k bs
  simpa [Memory.read, Memory.ofBytes] using h

/-- A list of cells whose offsets count up from `base` is the image of its bytes. -/
theorem eq_ofBytesFrom_of_offsets (m : Memory) (base : Nat)
    (h : m.map Prod.fst = List.range' base m.length) : m = Memory.ofBytesFrom base m.bytes := by
  induction m generalizing base with
  | nil => rfl
  | cons c m ih =>
    obtain ⟨a, b⟩ := c
    simp only [List.map_cons, List.length_cons, List.range'_succ, List.cons.injEq] at h
    have hm := ih (base + 1) h.2
    simp only [Memory.bytes] at hm
    simp only [Memory.bytes, List.map_cons, Memory.ofBytesFrom]
    rw [← hm, h.1]

/-- In canonical form an image is determined by its bytes. -/
theorem eq_ofBytes_of_wf {m : Memory} (h : m.wf) : m = Memory.ofBytes m.bytes := by
  apply eq_ofBytesFrom_of_offsets
  rw [← List.range_eq_range']
  exact h

/-- In canonical form every offset below `L` is listed, and no other. -/
theorem read_eq_bytes_of_wf {m : Memory} (h : m.wf) (k : Nat) : m.read k = m.bytes[k]? := by
  rw [eq_ofBytes_of_wf h, read_ofBytes, ofBytes_bytes]

/-- `MemRead(addr, 2)` of a canonical image inside its bounds: the two bytes, the lower offset in the high bits. -/
theorem memRead2_of_wf {m : Memory} (h : m.wf) {a : Nat} (ha : a + 2 ≤ m.size) :
    ∃ hi lo, m.bytes[a]? = some hi ∧ m.bytes[a + 1]? = some lo ∧ memRead2 m a = some (wordOfBytes hi lo) := by
  have hlen : m.bytes.length = m.size := bytes_length m
  obtain ⟨hi, hhi⟩ : ∃ hi, m.bytes[a]? = some hi := ⟨_, List.getElem?_eq_getElem (by omega)⟩
  obtain ⟨lo, hlo⟩ : ∃ lo, m.bytes[a + 1]? = some lo := ⟨_, List.getElem?_eq_getElem (by omega)⟩
  refine ⟨hi, lo, hhi, hlo, ?_⟩
  simp [memRead2, ha, read_eq_bytes_of_wf h, hhi, hlo]

/-- `MemRead(addr, 2)` past the end has no value, whatever the image. -/
theorem memRead2_outside {m : Memory} {a : Nat} (ha : m.size < a + 2) : memRead2 m a = none := by
  simp [memRead2, Nat.not_le.mpr ha]

end Sys2Proof.Machine
end

