-- ==== Sys2Proof/Laws/Operands.lean ====
section
/-! SUPPORT. The formatting primitives: their shapes and lengths (spec 41_render_format.md R102 to R108). -/

namespace Sys2Proof.Machine

@[simp] theorem bytesPerWord_eq : Config.bytesPerWord = 2 := rfl
@[simp] theorem nameField_eq : Config.nameField = 6 := rfl
@[simp] theorem maxLine_eq : Config.maxLine = 19 := rfl

theorem hexdigit_ne_space (d : Nibble) : hexdigit d ≠ ' ' := by revert d; decide

/-- The nibble of DRW is the digit 0 and its own digit. -/
theorem imm4as8_eq (v : Nibble) : imm4as8 v = ['#', '0', hexdigit v] := by revert v; decide

@[simp] theorem imm8_length (v : Byte) : (imm8 v).length = 3 := rfl
@[simp] theorem imm12_length (v : Imm12) : (imm12 v).length = 5 := rfl
@[simp] theorem imm4as8_length (v : Nibble) : (imm4as8 v).length = 3 := rfl
@[simp] theorem reghex_length (i : Nibble) : (reghex i).length = 2 := rfl

/-- A register operand has one digit, or the digit 1 and a second one. -/
theorem regdec_cases (i : Nibble) :
    (i ≤ 9 ∧ regdec i = ['V', hexdigit i]) ∨ (¬ i ≤ 9 ∧ regdec i = ['V', '1', hexdigit (i - 10)]) := by
  by_cases h : i ≤ 9#4
  · exact .inl ⟨h, by simp [regdec, dec, h]⟩
  · exact .inr ⟨h, by simp [regdec, dec, h]⟩

end Sys2Proof.Machine
end

