-- ==== Sys2Proof/Laws/PerInstr.lean ====
section
/-! SUPPORT. Per instruction: the word of a well-formed instruction selects the instruction's own row of the opcode
ROM (spec 30_encoding.md R72: "a word w selects the row when (w AND mask) == match", for SYS with its exclusions). -/

namespace Sys2Proof.Laws

open Sys2Proof.Machine

/-- Masking with a class mask leaves the class. -/
theorem and_classMask (c : Nibble) (a : Imm12) :
    ((c ++ a : Word) &&& 0xF000#16) = (c ++ 0#12 : Word) := by
  have h : (0xF000#16 : Word) = (0xF#4 ++ 0#12 : Word) := by decide
  rw [h]
  refine (BitVec.and_append (x₁ := c) (y₁ := a)).trans ?_
  rw [show (0xF#4 : Nibble) = BitVec.allOnes 4 by decide, BitVec.and_allOnes, BitVec.and_zero]

/-- The same for a word written as a class, a register and a byte. -/
theorem and_classMask_x_byte (c x : Nibble) (k : Byte) :
    ((c ++ x ++ k : Word) &&& 0xF000#16) = (c ++ 0#12 : Word) := by
  have h : (c ++ x ++ k : Word) = (c ++ (x ++ k : Imm12) : Word) := by
    apply BitVec.eq_of_toNat_eq
    rw [toNat_class_x_byte, toNat_class_imm12, toNat_nibble_byte]; omega
  rw [h, and_classMask]

/-- The same for a word written as four nibbles. -/
theorem and_classMask_nibbles (c x y n : Nibble) :
    ((c ++ x ++ y ++ n : Word) &&& 0xF000#16) = (c ++ 0#12 : Word) := by
  have h : (c ++ x ++ y ++ n : Word) = (c ++ x ++ (y ++ n : Byte) : Word) := by
    apply BitVec.eq_of_toNat_eq
    rw [toNat_nibbles, toNat_class_x_byte, toNat_nibble_nibble]; omega
  rw [h, and_classMask_x_byte]

/-- Masking with the mask of class 0x8 leaves the class and the low nibble. -/
theorem and_nibbleMask (c x y n : Nibble) :
    ((c ++ x ++ y ++ n : Word) &&& 0xF00F#16) = (c ++ 0#4 ++ 0#4 ++ n : Word) := by
  have h : (0xF00F#16 : Word) = (0xF#4 ++ 0#4 ++ 0#4 ++ 0xF#4 : Word) := by decide
  rw [h]
  refine (BitVec.and_append (x₁ := c ++ x ++ y) (y₁ := n)).trans ?_
  rw [BitVec.and_append, BitVec.and_append, show (0xF#4 : Nibble) = BitVec.allOnes 4 by decide,
    BitVec.and_allOnes, BitVec.and_allOnes, BitVec.and_zero, BitVec.and_zero]

/-- Masking with the mask of classes 0xE and 0xF leaves the class and the low byte. -/
theorem and_byteMask (c x : Nibble) (k : Byte) :
    ((c ++ x ++ k : Word) &&& 0xF0FF#16) = (c ++ 0#4 ++ k : Word) := by
  have h : (0xF0FF#16 : Word) = (0xF#4 ++ 0#4 ++ 0xFF#8 : Word) := by decide
  rw [h]
  refine (BitVec.and_append (x₁ := c ++ x) (y₁ := k)).trans ?_
  rw [BitVec.and_append, show (0xF#4 : Nibble) = BitVec.allOnes 4 by decide,
    show (0xFF#8 : Byte) = BitVec.allOnes 8 by decide, BitVec.and_allOnes, BitVec.and_allOnes, BitVec.and_zero]

/-- A word of class 0x0 is not one of SYS's two excluded words unless its `nnn` is (40_field_extractor.md R99). -/
theorem class0_ne {a b : Imm12} (h : a ≠ b) : (0x0#4 ++ a : Word) ≠ (0x0#4 ++ b : Word) := by
  intro heq
  apply h
  have h1 := (fields_class_imm12 0x0#4 a).2
  rw [heq, (fields_class_imm12 0x0#4 b).2] at h1
  exact h1.symm

/-- The word of the instruction selects the instruction's row. -/
def RowMatch.Statement (i : Instr) : Prop :=
  i.wf = true → (opcodeRom[midOf i]?).any (fun r => r.selects (encode i)) = true

theorem RowMatch.cls : RowMatch.Statement .cls := fun _ => by decide

theorem RowMatch.ret : RowMatch.Statement .ret := fun _ => by decide

theorem RowMatch.sys (nnn : Imm12) : RowMatch.Statement (.sys nnn) := fun h => by
  have h1 : nnn ≠ 0x0E0 ∧ nnn ≠ 0x0EE := by simpa [Instr.wf] using h
  have e0 : (0x0#4 ++ nnn : Word) ≠ 0x00E0#16 := class0_ne h1.1
  have e1 : (0x0#4 ++ nnn : Word) ≠ 0x00EE#16 := class0_ne h1.2
  have hm := and_classMask 0x0#4 nnn
  change (((0x0#4 ++ nnn : Word) &&& 0xF000#16) == 0x0000#16 && !([0x00E0#16, 0x00EE#16].contains (0x0#4 ++ nnn))) = true
  rw [hm]
  simp [e0, e1]

theorem RowMatch.jp (nnn : Imm12) : RowMatch.Statement (.jp nnn) := fun _ => by
  change ((encode (.jp nnn) &&& 0xF000#16) == 0x1000#16 && true) = true
  rw [encode, and_classMask]
  decide

theorem RowMatch.call (nnn : Imm12) : RowMatch.Statement (.call nnn) := fun _ => by
  change ((encode (.call nnn) &&& 0xF000#16) == 0x2000#16 && true) = true
  rw [encode, and_classMask]
  decide

theorem RowMatch.seImm (x : Nibble) (kk : Byte) : RowMatch.Statement (.seImm x kk) := fun _ => by
  change ((encode (.seImm x kk) &&& 0xF000#16) == 0x3000#16 && true) = true
  rw [encode, and_classMask_x_byte]
  decide

theorem RowMatch.sneImm (x : Nibble) (kk : Byte) : RowMatch.Statement (.sneImm x kk) := fun _ => by
  change ((encode (.sneImm x kk) &&& 0xF000#16) == 0x4000#16 && true) = true
  rw [encode, and_classMask_x_byte]
  decide

theorem RowMatch.sneReg5 (x : Nibble) (y : Nibble) (n : Nibble) : RowMatch.Statement (.sneReg5 x y n) := fun _ => by
  change ((encode (.sneReg5 x y n) &&& 0xF000#16) == 0x5000#16 && true) = true
  rw [encode, and_classMask_nibbles]
  decide

theorem RowMatch.ldImm (x : Nibble) (kk : Byte) : RowMatch.Statement (.ldImm x kk) := fun _ => by
  change ((encode (.ldImm x kk) &&& 0xF000#16) == 0x6000#16 && true) = true
  rw [encode, and_classMask_x_byte]
  decide

theorem RowMatch.addImm (x : Nibble) (kk : Byte) : RowMatch.Statement (.addImm x kk) := fun _ => by
  change ((encode (.addImm x kk) &&& 0xF000#16) == 0x7000#16 && true) = true
  rw [encode, and_classMask_x_byte]
  decide

theorem RowMatch.ldReg (x : Nibble) (y : Nibble) : RowMatch.Statement (.ldReg x y) := fun _ => by
  change ((encode (.ldReg x y) &&& 0xF00F#16) == 0x8000#16 && true) = true
  rw [encode, and_nibbleMask]
  decide

theorem RowMatch.orReg (x : Nibble) (y : Nibble) : RowMatch.Statement (.orReg x y) := fun _ => by
  change ((encode (.orReg x y) &&& 0xF00F#16) == 0x8001#16 && true) = true
  rw [encode, and_nibbleMask]
  decide

theorem RowMatch.andReg (x : Nibble) (y : Nibble) : RowMatch.Statement (.andReg x y) := fun _ => by
  change ((encode (.andReg x y) &&& 0xF00F#16) == 0x8002#16 && true) = true
  rw [encode, and_nibbleMask]
  decide

theorem RowMatch.xorReg (x : Nibble) (y : Nibble) : RowMatch.Statement (.xorReg x y) := fun _ => by
  change ((encode (.xorReg x y) &&& 0xF00F#16) == 0x8003#16 && true) = true
  rw [encode, and_nibbleMask]
  decide

theorem RowMatch.addReg (x : Nibble) (y : Nibble) : RowMatch.Statement (.addReg x y) := fun _ => by
  change ((encode (.addReg x y) &&& 0xF00F#16) == 0x8004#16 && true) = true
  rw [encode, and_nibbleMask]
  decide

theorem RowMatch.subReg (x : Nibble) (y : Nibble) : RowMatch.Statement (.subReg x y) := fun _ => by
  change ((encode (.subReg x y) &&& 0xF00F#16) == 0x8005#16 && true) = true
  rw [encode, and_nibbleMask]
  decide

theorem RowMatch.shr (x : Nibble) (y : Nibble) : RowMatch.Statement (.shr x y) := fun _ => by
  change ((encode (.shr x y) &&& 0xF00F#16) == 0x8006#16 && true) = true
  rw [encode, and_nibbleMask]
  decide

theorem RowMatch.subn (x : Nibble) (y : Nibble) : RowMatch.Statement (.subn x y) := fun _ => by
  change ((encode (.subn x y) &&& 0xF00F#16) == 0x8007#16 && true) = true
  rw [encode, and_nibbleMask]
  decide

theorem RowMatch.shl (x : Nibble) (y : Nibble) : RowMatch.Statement (.shl x y) := fun _ => by
  change ((encode (.shl x y) &&& 0xF00F#16) == 0x800E#16 && true) = true
  rw [encode, and_nibbleMask]
  decide

theorem RowMatch.sneReg9 (x : Nibble) (y : Nibble) (n : Nibble) : RowMatch.Statement (.sneReg9 x y n) := fun _ => by
  change ((encode (.sneReg9 x y n) &&& 0xF000#16) == 0x9000#16 && true) = true
  rw [encode, and_classMask_nibbles]
  decide

theorem RowMatch.ldI (nnn : Imm12) : RowMatch.Statement (.ldI nnn) := fun _ => by
  change ((encode (.ldI nnn) &&& 0xF000#16) == 0xA000#16 && true) = true
  rw [encode, and_classMask]
  decide

theorem RowMatch.jpV0 (nnn : Imm12) : RowMatch.Statement (.jpV0 nnn) := fun _ => by
  change ((encode (.jpV0 nnn) &&& 0xF000#16) == 0xB000#16 && true) = true
  rw [encode, and_classMask]
  decide

theorem RowMatch.rnd (x : Nibble) (kk : Byte) : RowMatch.Statement (.rnd x kk) := fun _ => by
  change ((encode (.rnd x kk) &&& 0xF000#16) == 0xC000#16 && true) = true
  rw [encode, and_classMask_x_byte]
  decide

theorem RowMatch.drw (x : Nibble) (y : Nibble) (n : Nibble) : RowMatch.Statement (.drw x y n) := fun _ => by
  change ((encode (.drw x y n) &&& 0xF000#16) == 0xD000#16 && true) = true
  rw [encode, and_classMask_nibbles]
  decide

theorem RowMatch.skp (x : Nibble) : RowMatch.Statement (.skp x) := fun _ => by
  change ((encode (.skp x) &&& 0xF0FF#16) == 0xE09E#16 && true) = true
  rw [encode, and_byteMask]
  decide

theorem RowMatch.sknp (x : Nibble) : RowMatch.Statement (.sknp x) := fun _ => by
  change ((encode (.sknp x) &&& 0xF0FF#16) == 0xE0A1#16 && true) = true
  rw [encode, and_byteMask]
  decide

theorem RowMatch.ldXDt (x : Nibble) : RowMatch.Statement (.ldXDt x) := fun _ => by
  change ((encode (.ldXDt x) &&& 0xF0FF#16) == 0xF007#16 && true) = true
  rw [encode, and_byteMask]
  decide

theorem RowMatch.ldXK (x : Nibble) : RowMatch.Statement (.ldXK x) := fun _ => by
  change ((encode (.ldXK x) &&& 0xF0FF#16) == 0xF00A#16 && true) = true
  rw [encode, and_byteMask]
  decide

theorem RowMatch.ldDtX (x : Nibble) : RowMatch.Statement (.ldDtX x) := fun _ => by
  change ((encode (.ldDtX x) &&& 0xF0FF#16) == 0xF015#16 && true) = true
  rw [encode, and_byteMask]
  decide

theorem RowMatch.ldStX (x : Nibble) : RowMatch.Statement (.ldStX x) := fun _ => by
  change ((encode (.ldStX x) &&& 0xF0FF#16) == 0xF018#16 && true) = true
  rw [encode, and_byteMask]
  decide

theorem RowMatch.addIX (x : Nibble) : RowMatch.Statement (.addIX x) := fun _ => by
  change ((encode (.addIX x) &&& 0xF0FF#16) == 0xF01E#16 && true) = true
  rw [encode, and_byteMask]
  decide

theorem RowMatch.ldFX (x : Nibble) : RowMatch.Statement (.ldFX x) := fun _ => by
  change ((encode (.ldFX x) &&& 0xF0FF#16) == 0xF029#16 && true) = true
  rw [encode, and_byteMask]
  decide

theorem RowMatch.ldBX (x : Nibble) : RowMatch.Statement (.ldBX x) := fun _ => by
  change ((encode (.ldBX x) &&& 0xF0FF#16) == 0xF033#16 && true) = true
  rw [encode, and_byteMask]
  decide

theorem RowMatch.ldIindX (x : Nibble) : RowMatch.Statement (.ldIindX x) := fun _ => by
  change ((encode (.ldIindX x) &&& 0xF0FF#16) == 0xF055#16 && true) = true
  rw [encode, and_byteMask]
  decide

theorem RowMatch.ldXIind (x : Nibble) : RowMatch.Statement (.ldXIind x) := fun _ => by
  change ((encode (.ldXIind x) &&& 0xF0FF#16) == 0xF065#16 && true) = true
  rw [encode, and_byteMask]
  decide

theorem RowMatch.unmapped (w : Word) : RowMatch.Statement (.unmapped w) := fun _ => by
  change ((w &&& 0x0000#16) == 0x0000#16 && true) = true
  simp

end Sys2Proof.Laws
end

