-- ==== Sys2Proof/Laws/Run.lean ====
section
/-! SUPPORT. The host's runner, one step at a time. -/

namespace Sys2Proof

open Sys2Proof.Machine

theorem runSteps_zero (s : State) : runSteps 0 s = .next s := rfl

/-- A run over a step that answers a next state goes on from it. -/
theorem runSteps_succ {s t : State} (k : Nat) (h : step s = .next t) : runSteps (k + 1) s = runSteps k t := by
  have h' : Sys2Proof.core.step s = .next t := h
  simp only [runSteps, Host.Core.run, h']
  rfl

end Sys2Proof
end

