-- ==== Sys2Proof/Tests/Slice0.lean ====
section
/-! SUPPORT. The model's own tests: well-formedness, decoding and encoding of words written out bit by bit from the
encodings of spec 30_encoding.md R72, the lines of 95_test_vectors.md, and for each statement with hypotheses a
witness that meets them. -/

namespace Sys2Proof.Tests

open Sys2Proof Sys2Proof.Machine

/-! ## Well-formedness: each check refuses an ill-formed term (30_encoding.md R66, R73) -/

theorem test_wf_sys_refuses_cls : (Instr.sys 0x0E0).wf = false := by decide
theorem test_wf_sys_refuses_ret : (Instr.sys 0x0EE).wf = false := by decide
theorem test_wf_unmapped_refuses_class8 : (Instr.unmapped 0x8016).wf = false := by decide
theorem test_wf_unmapped_refuses_classE : (Instr.unmapped 0xE09E).wf = false := by decide
theorem test_wf_unmapped_refuses_classF : (Instr.unmapped 0xF165).wf = false := by decide
theorem test_wf_unmapped_refuses_other_classes : (Instr.unmapped 0x5121).wf = false := by decide
theorem test_wf_accepts : (Instr.sys 0x0E1).wf = true ∧ (Instr.unmapped 0xFFFF).wf = true := by decide

/-! ## Decoding and encoding, a word per row (30_encoding.md R72) -/

theorem test_decode_cls : decodeWord 0b0000000011100000 = .cls ∧ encode (.cls) = 0b0000000011100000 := by decide
theorem test_decode_ret : decodeWord 0b0000000011101110 = .ret ∧ encode (.ret) = 0b0000000011101110 := by decide
theorem test_decode_sys : decodeWord 0b0000000111100000 = .sys 0x1E0 ∧ encode (.sys 0x1E0) = 0b0000000111100000 := by decide
theorem test_decode_jp : decodeWord 0b0001001000110100 = .jp 0x234 ∧ encode (.jp 0x234) = 0b0001001000110100 := by decide
theorem test_decode_call : decodeWord 0b0010101010111100 = .call 0xABC ∧ encode (.call 0xABC) = 0b0010101010111100 := by decide
theorem test_decode_seImm : decodeWord 0b0011111111111111 = .seImm 15 0xFF ∧ encode (.seImm 15 0xFF) = 0b0011111111111111 := by decide
theorem test_decode_sneImm : decodeWord 0b0100110000000111 = .sneImm 12 0x07 ∧ encode (.sneImm 12 0x07) = 0b0100110000000111 := by decide
theorem test_decode_sneReg5 : decodeWord 0b0101000100101111 = .sneReg5 1 2 15 ∧ encode (.sneReg5 1 2 15) = 0b0101000100101111 := by decide
theorem test_decode_ldImm : decodeWord 0b0110101000000101 = .ldImm 10 0x05 ∧ encode (.ldImm 10 0x05) = 0b0110101000000101 := by decide
theorem test_decode_addImm : decodeWord 0b0111100100000001 = .addImm 9 0x01 ∧ encode (.addImm 9 0x01) = 0b0111100100000001 := by decide
theorem test_decode_ldReg : decodeWord 0b1000000100100000 = .ldReg 1 2 ∧ encode (.ldReg 1 2) = 0b1000000100100000 := by decide
theorem test_decode_orReg : decodeWord 0b1000000100100001 = .orReg 1 2 ∧ encode (.orReg 1 2) = 0b1000000100100001 := by decide
theorem test_decode_andReg : decodeWord 0b1000001101000010 = .andReg 3 4 ∧ encode (.andReg 3 4) = 0b1000001101000010 := by decide
theorem test_decode_xorReg : decodeWord 0b1000010101100011 = .xorReg 5 6 ∧ encode (.xorReg 5 6) = 0b1000010101100011 := by decide
theorem test_decode_addReg : decodeWord 0b1000101010110100 = .addReg 10 11 ∧ encode (.addReg 10 11) = 0b1000101010110100 := by decide
theorem test_decode_subReg : decodeWord 0b1000011110000101 = .subReg 7 8 ∧ encode (.subReg 7 8) = 0b1000011110000101 := by decide
theorem test_decode_shr : decodeWord 0b1000000000010110 = .shr 0 1 ∧ encode (.shr 0 1) = 0b1000000000010110 := by decide
theorem test_decode_subn : decodeWord 0b1000100110100111 = .subn 9 10 ∧ encode (.subn 9 10) = 0b1000100110100111 := by decide
theorem test_decode_shl : decodeWord 0b1000000100101110 = .shl 1 2 ∧ encode (.shl 1 2) = 0b1000000100101110 := by decide
theorem test_decode_sneReg9 : decodeWord 0b1001000100101111 = .sneReg9 1 2 15 ∧ encode (.sneReg9 1 2 15) = 0b1001000100101111 := by decide
theorem test_decode_ldI : decodeWord 0b1010101111001101 = .ldI 0xBCD ∧ encode (.ldI 0xBCD) = 0b1010101111001101 := by decide
theorem test_decode_jpV0 : decodeWord 0b1011011100000000 = .jpV0 0x700 ∧ encode (.jpV0 0x700) = 0b1011011100000000 := by decide
theorem test_decode_rnd : decodeWord 0b1100101000010010 = .rnd 10 0x12 ∧ encode (.rnd 10 0x12) = 0b1100101000010010 := by decide
theorem test_decode_drw : decodeWord 0b1101011110100011 = .drw 7 10 3 ∧ encode (.drw 7 10 3) = 0b1101011110100011 := by decide
theorem test_decode_skp : decodeWord 0b1110111110011110 = .skp 15 ∧ encode (.skp 15) = 0b1110111110011110 := by decide
theorem test_decode_sknp : decodeWord 0b1110101110100001 = .sknp 11 ∧ encode (.sknp 11) = 0b1110101110100001 := by decide
theorem test_decode_ldXDt : decodeWord 0b1111001100000111 = .ldXDt 3 ∧ encode (.ldXDt 3) = 0b1111001100000111 := by decide
theorem test_decode_ldXK : decodeWord 0b1111010000001010 = .ldXK 4 ∧ encode (.ldXK 4) = 0b1111010000001010 := by decide
theorem test_decode_ldDtX : decodeWord 0b1111010100010101 = .ldDtX 5 ∧ encode (.ldDtX 5) = 0b1111010100010101 := by decide
theorem test_decode_ldStX : decodeWord 0b1111011000011000 = .ldStX 6 ∧ encode (.ldStX 6) = 0b1111011000011000 := by decide
theorem test_decode_addIX : decodeWord 0b1111011100011110 = .addIX 7 ∧ encode (.addIX 7) = 0b1111011100011110 := by decide
theorem test_decode_ldFX : decodeWord 0b1111100000101001 = .ldFX 8 ∧ encode (.ldFX 8) = 0b1111100000101001 := by decide
theorem test_decode_ldBX : decodeWord 0b1111100100110011 = .ldBX 9 ∧ encode (.ldBX 9) = 0b1111100100110011 := by decide
theorem test_decode_ldIindX : decodeWord 0b1111101001010101 = .ldIindX 10 ∧ encode (.ldIindX 10) = 0b1111101001010101 := by decide
theorem test_decode_ldXIind : decodeWord 0b1111000101100101 = .ldXIind 1 ∧ encode (.ldXIind 1) = 0b1111000101100101 := by decide
theorem test_decode_unmapped : decodeWord 0b1000000000011001 = .unmapped 0x8019 ∧ encode (.unmapped 0x8019) = 0b1000000000011001 := by decide

theorem test_decode_refuses_short_input :
    decodeBytes [] = .error .noByte ∧ decodeBytes [0x12] = .error .danglingByte := ⟨rfl, rfl⟩

theorem test_decodeTableWord_big_endian : decodeTableWord 16 0x1234 = some (.jp 0x234) := by decide

/-! ## Lines: one word step from reset (95_test_vectors.md part 2) -/

/-- The output list after one step over a placed word. -/
def outAfter (w : Nat) : Option (List Line) :=
  match step (State.reset.withFetchWord 16 w) with
  | .next t => some t.out
  | .fault _ => none
  | .refused _ => none

theorem test_line_cls : outAfter 0b0000000011100000 = some ["CLS".toList] := by decide
theorem test_line_ret : outAfter 0b0000000011101110 = some ["RET".toList] := by decide
theorem test_line_sys : outAfter 0b0000000111100000 = some ["SYS   #01E0".toList] := by decide
theorem test_line_jp : outAfter 0b0001001000110100 = some ["JP    #0234".toList] := by decide
theorem test_line_call : outAfter 0b0010101010111100 = some ["CALL  #0ABC".toList] := by decide
theorem test_line_seImm : outAfter 0b0011111111111111 = some ["SE    V15, #FF".toList] := by decide
theorem test_line_sneImm : outAfter 0b0100110000000111 = some ["SNE   V12, #07".toList] := by decide
theorem test_line_sneReg5 : outAfter 0b0101000100101111 = some ["SNE   V1, V2".toList] := by decide
theorem test_line_ldImm : outAfter 0b0110101000000101 = some ["LD    V10, #05".toList] := by decide
theorem test_line_addImm : outAfter 0b0111100100000001 = some ["ADD   V9, #01".toList] := by decide
theorem test_line_ldReg : outAfter 0b1000000100100000 = some ["LD    V1, V2".toList] := by decide
theorem test_line_orReg : outAfter 0b1000000100100001 = some ["OR    V1, V2".toList] := by decide
theorem test_line_andReg : outAfter 0b1000001101000010 = some ["AND   V3, V4".toList] := by decide
theorem test_line_xorReg : outAfter 0b1000010101100011 = some ["XOR   V5, V6".toList] := by decide
theorem test_line_addReg : outAfter 0b1000101010110100 = some ["ADD   V10, V11".toList] := by decide
theorem test_line_subReg : outAfter 0b1000011110000101 = some ["SUB   V7, V8".toList] := by decide
theorem test_line_shr : outAfter 0b1000000000010110 = some ["SHR   V0".toList ++ [Char.ofNat 0x7B] ++ ", V1".toList ++ [Char.ofNat 0x7D]] := by decide
theorem test_line_subn : outAfter 0b1000100110100111 = some ["SUBN  V9, V10".toList] := by decide
theorem test_line_shl : outAfter 0b1000000100101110 = some ["SHL   V1".toList ++ [Char.ofNat 0x7B] ++ ", V2".toList ++ [Char.ofNat 0x7D]] := by decide
theorem test_line_sneReg9 : outAfter 0b1001000100101111 = some ["SNE   V1, V2".toList] := by decide
theorem test_line_ldI : outAfter 0b1010101111001101 = some ["LD    I, #0BCD".toList] := by decide
theorem test_line_jpV0 : outAfter 0b1011011100000000 = some ["JP    V0, #0700".toList] := by decide
theorem test_line_rnd : outAfter 0b1100101000010010 = some ["RND   VA, #12".toList] := by decide
theorem test_line_drw : outAfter 0b1101011110100011 = some ["DRW   V7, V10, #03".toList] := by decide
theorem test_line_skp : outAfter 0b1110111110011110 = some ["SKP   V15".toList] := by decide
theorem test_line_sknp : outAfter 0b1110101110100001 = some ["SKNP  V11".toList] := by decide
theorem test_line_ldXDt : outAfter 0b1111001100000111 = some ["LD    V3, DT".toList] := by decide
theorem test_line_ldXK : outAfter 0b1111010000001010 = some ["LD    V4, K".toList] := by decide
theorem test_line_ldDtX : outAfter 0b1111010100010101 = some ["LD    DT, V5".toList] := by decide
theorem test_line_ldStX : outAfter 0b1111011000011000 = some ["LD    ST, V6".toList] := by decide
theorem test_line_addIX : outAfter 0b1111011100011110 = some ["ADD   I, V7".toList] := by decide
theorem test_line_ldFX : outAfter 0b1111100000101001 = some ["LD    F, V8".toList] := by decide
theorem test_line_ldBX : outAfter 0b1111100100110011 = some ["LD    B, V9".toList] := by decide
theorem test_line_ldIindX : outAfter 0b1111101001010101 = some ["LD    [I], V10".toList] := by decide
theorem test_line_ldXIind : outAfter 0b1111000101100101 = some ["LD    V1, [I]".toList] := by decide
theorem test_line_unmapped : outAfter 0b1000000000011001 = some ["??".toList] := by decide

/-- 41_render_format.md R115, 95_test_vectors.md 2.5: the longest line. -/
theorem test_longest_line : (render (fields 0xDFFF)).length = 19 := by decide

/-- 95_test_vectors.md V-S1. -/
theorem test_fields_ABCD : fields 0xABCD =
    { opcodeClass := 0xA, x := 0xB, y := 0xC, n := 0xD, kk := 0xCD, nnn := 0xBCD, lowByte := 0xCD } := by decide

/-! ## The sequencer (95_test_vectors.md 2.7 and P4, P5) -/

/-- `00 E0 12 34` after its first word: `CLS` emitted, the cursor at 2. -/
def midRun : State :=
  { boot [0x00, 0xE0, 0x12, 0x34] with pos := 2, out := ["CLS".toList], phase := .running }

/-- The same image at its end. -/
def atEnd : State := { midRun with pos := 4, out := ["CLS".toList, "JP    #0234".toList] }

/-- The same image with the run over. -/
def finished : State := { atEnd with phase := .done }

/-- `00 E0 12`: odd, one complete word not rendered. -/
def oddReady : State := boot [0x00, 0xE0, 0x12]

theorem test_odd_length_fails :
    step oddReady = .next { oddReady with err := .sizedInput 3, phase := .failed } := rfl

theorem test_even_length_runs :
    step (boot [0x00, 0xE0, 0x12, 0x34]) = .next { boot [0x00, 0xE0, 0x12, 0x34] with phase := .running } := rfl

theorem test_byte_order : disassemble [0x34, 0x12] = .ok ["SE    V4, #12".toList] := by decide

theorem test_unmapped_words_go_on :
    disassemble [0x00, 0x00, 0xFF, 0xFF, 0xE0, 0x00, 0xF0, 0xFF] =
      .ok ["SYS   #0000".toList, "??".toList, "??".toList, "??".toList] := by decide

theorem test_empty_image_is_done : runSteps 2 (boot []) = .next { boot [] with phase := .done } := rfl

/-- 95_test_vectors.md 2.7: the text artifacts. -/
theorem test_text_artifact :
    textOf [] = [] ∧ (textOf ["CLS".toList]).length = 4 ∧
    textOf ["CLS".toList, "RET".toList] = "CLS\nRET\n".toList := by decide

/-- 93_implementation_defined.md U3: a path of two characters is refused. -/
theorem test_short_path_refused : outputPath "ab".toList none = none := by decide

/-! ## Witnesses: a concrete state and operands for the hypotheses of each statement that has any -/

theorem witness_inv_ready : RunInvariant (boot [0x00, 0xE0]) := ⟨by decide, rfl, rfl, rfl⟩
theorem witness_inv_running : RunInvariant midRun := ⟨by decide, rfl, rfl, by decide, rfl, by decide⟩
theorem witness_inv_at_end : RunInvariant atEnd := ⟨by decide, rfl, rfl, by decide, rfl, by decide⟩
theorem witness_inv_done : RunInvariant finished := ⟨by decide, rfl, rfl, rfl, by decide⟩
theorem witness_inv_failed : RunInvariant { oddReady with err := .sizedInput 3, phase := .failed } :=
  ⟨by decide, rfl, rfl, rfl, rfl⟩

/-- InvariantHoldsAtReset. -/
theorem witness_reset_wf : finished.image.wf ∧ finished.image ≠ [] := by decide

/-- StepKeepsInvariant, InvariantStateAlwaysSteps, StepsLeftCountsDown: a word step. -/
theorem witness_step_keeps_invariant :
    RunInvariant midRun ∧ step midRun = .next atEnd ∧ terminal midRun = false ∧ stepsLeft midRun = 2 :=
  ⟨witness_inv_running, rfl, rfl, rfl⟩

/-- The same statements: the end step. -/
theorem witness_end_keeps_invariant :
    RunInvariant atEnd ∧ step atEnd = .next finished ∧ terminal atEnd = false ∧ stepsLeft atEnd = 1 :=
  ⟨witness_inv_at_end, rfl, rfl, rfl⟩

/-- SuccessfulRunRendersEachWord: an image, and a second one that agrees on its second word only. -/
theorem witness_successful_run :
    [0x00#8, 0xE0#8, 0x12#8, 0x34#8].length % 2 = 0 ∧
    runSteps 4 (boot [0x00, 0xE0, 0x12, 0x34]) = .next finished ∧ finished.phase = .done ∧
    (∃ t, runSteps 4 (boot [0xFF, 0xFF, 0x12, 0x34]) = .next t ∧ t.phase = .done ∧ t.out[1]? = finished.out[1]?) :=
  ⟨rfl, rfl, rfl, _, rfl, rfl, rfl⟩

/-- OddImageBytesAreNeverObserved: the shortest odd images (R211, L = 1). -/
theorem witness_odd_images : [0x12#8].length % 2 = 1 ∧ [0x34#8].length = [0x12#8].length := by decide

/-- LinesOfJoinedImages. -/
theorem witness_joined_images : [0x00#8, 0xE0#8].length % 2 = 0 ∧
    linesOf ([0x00#8, 0xE0#8] ++ [0x12#8, 0x34#8]) = ["CLS".toList, "JP    #0234".toList] := by decide

/-- StepRunsDecodedInstruction, WordStepFetchesRendersEmits, WordsAreBigEndian: the last word of an image. -/
theorem witness_word_step :
    midRun.phase = .running ∧ midRun.pos + 2 ≤ midRun.len ∧ midRun.image.read midRun.pos = some 0x12 ∧
    midRun.image.read (midRun.pos + 1) = some 0x34 ∧
    decodeBytes [0x12, 0x34, 0x00] = .ok (.jp 0x234, [0x00]) :=
  ⟨rfl, by decide, rfl, rfl, rfl⟩

/-- StartStepTakesSizedInputError. -/
theorem witness_start_odd : oddReady.phase = .ready ∧ oddReady.len % 2 = 1 := by decide

/-- StartStepBeginsRun: also the empty image. -/
theorem witness_start_even :
    (boot [0x00, 0xE0]).phase = .ready ∧ (boot [0x00, 0xE0]).len % 2 = 0 ∧ (boot []).len % 2 = 0 := by decide

/-- EndStepFinishesRun. -/
theorem witness_end_step : atEnd.phase = .running ∧ atEnd.pos = atEnd.len := by decide

/-- TerminalPhasesKeepState: both phases. -/
theorem witness_terminal :
    finished.phase = .done ∧ { oddReady with err := .sizedInput 3, phase := Phase.failed }.phase = .failed :=
  ⟨rfl, rfl⟩

/-- FetchPastEndStops: a cursor at the last byte of an odd image, a byte the image does not list, and a cursor past
the end. -/
theorem witness_fetch_past_end :
    (let s := { oddReady with pos := 2, phase := Phase.running }; s.pos < s.len ∧ s.len < s.pos + 2) ∧
    (let s : State := { midRun with image := [(7, 0x00), (8, 0x00)], pos := 0 };
      s.pos + 2 ≤ s.len ∧ s.image.read s.pos = none) ∧
    (let s := { midRun with pos := 5 }; s.len < s.pos) := by decide

/-- MemReadDefinedOnlyInsideImage: the last word, one past it, the last byte, one past it; and a fetch of a run. -/
theorem witness_memRead :
    midRun.image.wf ∧ 2 + 2 ≤ midRun.image.size ∧ midRun.image.size < 3 + 2 ∧ 3 + 1 ≤ midRun.image.size ∧
    midRun.image.size < 4 + 1 ∧ midRun.phase = .running ∧ midRun.pos < midRun.len := by decide

/-- ImageIsIndexedAndReadOnly, OutputListOnlyGrows, CursorMovesOnlyByWordStep, PhaseFollowsRunOrder: steps that answer
a next state, in each phase (and from a state no run reaches). -/
theorem witness_steps :
    step midRun = .next atEnd ∧ step atEnd = .next finished ∧ step finished = .next finished ∧
    step { midRun with out := [], err := .sizedInput 9 } =
      .next { atEnd with out := ["JP    #0234".toList], err := .sizedInput 9 } := ⟨rfl, rfl, rfl, rfl⟩

/-- ErrorIsWrittenOnlyByStartStep. -/
theorem witness_error_written :
    step oddReady = .next { oddReady with err := .sizedInput 3, phase := .failed } ∧
    ErrStatus.sizedInput 3 ≠ oddReady.err := ⟨rfl, by decide⟩

/-- DecodeOfEncodeIsInstruction: the two checks that can fail, at neighbours of what they refuse. -/
theorem witness_wf : (Instr.sys 0x0E1).wf = true ∧ (Instr.sys 0x0EF).wf = true ∧
    (Instr.unmapped 0x8018).wf = true ∧ (Instr.unmapped 0xE09F).wf = true ∧ (Instr.unmapped 0xF066).wf = true := by
  decide

/-- IgnoredBitsDoNotSelect. -/
theorem witness_class0 : (0x1E0 : Imm12) ≠ 0x0E0 ∧ (0x1E0 : Imm12) ≠ 0x0EE := by decide

/-- `FF FF` in phase Running: the cursor is at an unmapped word. -/
def atUnmapped : State := { boot [0xFF, 0xFF] with phase := .running }

/-- UnmappedWordIsNoException: a state at an unmapped word. -/
theorem witness_unmapped_state :
    atUnmapped.phase = .running ∧ atUnmapped.pos + 2 ≤ atUnmapped.len ∧
    atUnmapped.image.read atUnmapped.pos = some 0xFF ∧ atUnmapped.image.read (atUnmapped.pos + 1) = some 0xFF ∧
    isUnmapped (wordOfBytes 0xFF 0xFF) = true := by decide

/-- UnmappedWordIsNoException: a list of unmapped words, of each class. -/
theorem witness_unmapped_words : [0xFFFF#16, 0xE000#16, 0x8008#16].all isUnmapped = true := by decide

/-- NameColumnIsSixWide: a name as wide as the column, and the empty one. -/
theorem witness_name : "ABCDEF".toList.length ≤ 6 ∧ "".toList.length ≤ 6 := by decide

/-- MapperPortsCarryLine: the first and the last character of the longest line. -/
theorem witness_ports : (render (fields 0xDFFF))[0]? = some 'D' ∧ (render (fields 0xDFFF))[18]? = some 'F' := by
  decide

/-- TextArtifactSplitsBack. -/
theorem witness_text : ∀ line ∈ ["CLS".toList, "??".toList], newline ∉ line := by decide

/-- HostCollectsRunResult: both terminal phases give a result. -/
theorem witness_collect :
    collect finished ≠ none ∧ collect { oddReady with err := .sizedInput 3, phase := .failed } ≠ none := by decide

/-- PlacedWordRunsNext also where the cursor stands past the image. -/
theorem witness_placed_word : (State.withFetchWord { midRun with pos := 9 } 16 0x00E0).len = 11 := by decide

end Sys2Proof.Tests
end

section
/-! The state of the block (spec 10_state.md): which fields a step and an instruction leave alone. -/

namespace Sys2Proof.Machine

/-- The name column makes every line with operands at least six characters long (41_render_format.md R101). -/
theorem six_le_pad6_length (name : Line) : 6 ≤ (pad6 name).length := by
  simp only [pad6, List.length_append, List.length_replicate, nameField_eq]
  omega

theorem lineWith_ne_nil (name operands : Line) : lineWith name operands ≠ [] := by
  have hpad := six_le_pad6_length name
  apply List.append_ne_nil_of_left_ne_nil
  exact List.ne_nil_of_length_pos (by omega)

/-- CLS, RET and the fall-through row are literals; every other row has the name column. -/
theorem lineOf_ne_nil (i : Instr) : lineOf i ≠ [] := by
  cases i with
  | cls => exact (by decide : lineCls ≠ [])
  | ret => exact (by decide : lineRet ≠ [])
  | unmapped w => exact (by decide : lineUnmapped ≠ [])
  | _ => exact lineWith_ne_nil _ _

/-- No rule writes the image (10_state.md R26). -/
theorem step_keeps_image {s t : State} (h : step s = .next t) : t.image = s.image := by
  obtain ⟨-, rfl⟩ | ⟨-, -, w, -, rfl⟩ | ⟨-, -, rfl⟩ | ⟨-, rfl⟩ := step_next_cases h
  · exact startStep_image s
  · simp only [advance_image, emit_image]
  · exact endStep_image s
  · rfl

/-- Settles O19: a loaded image reads by offset, and every case of a step keeps the image. -/
theorem imageIsIndexedAndReadOnly : Obligations.ImageIsIndexedAndReadOnly := by
  refine ⟨fun bs k => ⟨ofBytes_wf bs, ofBytes_size bs, read_ofBytes bs k⟩, fun s t h => ?_⟩
  have himage : t.image = s.image := step_keeps_image h
  exact ⟨himage, fun a => by rw [himage]⟩

/-- Settles O20: only the word step touches `out`, and it appends the line of its word. -/
theorem outputListOnlyGrows : Obligations.OutputListOnlyGrows := by
  intro s t h
  obtain ⟨-, rfl⟩ | ⟨-, -, w, -, rfl⟩ | ⟨-, -, rfl⟩ | ⟨-, rfl⟩ := step_next_cases h
  · exact .inl (startStep_out s)
  · exact .inr ⟨lineOf (decodeWord w), by simp only [advance_out, emit_out]⟩
  · exact .inl (endStep_out s)
  · exact .inl rfl

/-- Settles O24: the line is `lineOf i`, and `exec` emits it and advances, in every state. -/
theorem everyInstructionOnlyEmitsItsLine : Obligations.EveryInstructionOnlyEmitsItsLine :=
  fun i => ⟨lineOf i, lineOf_ne_nil i, exec_eq_next i⟩

end Sys2Proof.Machine
end

section
/-! The image as memory (spec 20_memory.md R41, R44): the read primitive inside and outside the image, the byte order
of a word, and the fetch of a run. -/

namespace Sys2Proof.Machine

/-! ## The read primitive -/

theorem exists_read_of_wf {m : Memory} (h : m.wf) {a : Nat} (ha : a < m.size) : ∃ b, m.read a = some b := by
  have hlen : a < m.bytes.length := by rwa [bytes_length]
  exact ⟨m.bytes[a], by rw [read_eq_bytes_of_wf h, List.getElem?_eq_getElem hlen]⟩

theorem memRead1_eq_read {m : Memory} {a : Nat} (ha : a + 1 ≤ m.size) : memRead1 m a = m.read a := if_pos ha

theorem memRead1_outside {m : Memory} {a : Nat} (ha : m.size < a + 1) : memRead1 m a = none :=
  if_neg (Nat.not_le.mpr ha)

/-- Two listed bytes inside the bounds read as one word, whether or not the image is canonical (R41). -/
theorem memRead2_eq_concat {m : Memory} {a : Nat} {hi lo : Byte} (ha : a + 2 ≤ m.size) (hhi : m.read a = some hi)
    (hlo : m.read (a + 1) = some lo) : memRead2 m a = some (hi ++ lo) := by
  simp only [memRead2, if_pos ha, hhi, hlo, wordOfBytes]

end Sys2Proof.Machine

namespace Sys2Proof

open Sys2Proof.Machine

/-! ## The fetch of a run -/

/-- What the invariant says of the image and the cursor while words are processed (10_state.md R25, R26). -/
theorem RunInvariant.image_and_cursor {s : State} (h : RunInvariant s) (hp : s.phase = .running) :
    s.image.wf ∧ s.len % 2 = 0 ∧ s.pos % 2 = 0 ∧ s.pos ≤ s.len := by
  obtain ⟨hwf, hphase⟩ := h
  rw [hp] at hphase
  obtain ⟨hlen, hpos, hle, -, -⟩ := hphase
  exact ⟨hwf, hlen, hpos, hle⟩

/-- Cursor and length are both even, so a cursor before the end has a whole word before it. -/
theorem RunInvariant.word_inside {s : State} (h : RunInvariant s) (hp : s.phase = .running) (hlt : s.pos < s.len) :
    s.pos + 2 ≤ s.len := by
  obtain ⟨-, hlen, hpos, -⟩ := h.image_and_cursor hp
  omega

theorem RunInvariant.fetch_defined {s : State} (h : RunInvariant s) (hp : s.phase = .running) (hlt : s.pos < s.len) :
    ∃ w, fetchWord s = some w := by
  obtain ⟨hwf, -⟩ := h.image_and_cursor hp
  obtain ⟨hi, lo, -, -, hread⟩ := memRead2_of_wf hwf (h.word_inside hp hlt)
  exact ⟨wordOfBytes hi lo, hread⟩

end Sys2Proof

namespace Sys2Proof.Machine

/-- Settles O18: the bytes inside a canonical image are all listed, and evenness keeps every fetch inside. -/
theorem memReadDefinedOnlyInsideImage : Obligations.MemReadDefinedOnlyInsideImage := by
  refine ⟨fun m a hwf => ⟨fun ha => ?_, memRead2_outside, fun ha => ?_, memRead1_outside⟩, fun s hinv hp hlt => ?_⟩
  · obtain ⟨hi, hhi⟩ := exists_read_of_wf hwf (show a < m.size by omega)
    obtain ⟨lo, hlo⟩ := exists_read_of_wf hwf (show a + 1 < m.size by omega)
    exact ⟨hi, lo, hhi, hlo, memRead2_eq_concat ha hhi hlo⟩
  · obtain ⟨b, hb⟩ := exists_read_of_wf hwf ha
    exact ⟨b, hb, (memRead1_eq_read ha).trans hb⟩
  · exact ⟨hinv.word_inside hp hlt, hinv.fetch_defined hp hlt⟩

/-- Settles O26: decoder and fetch both build the word as `hi ++ lo`, whose value and halves are those of R41. -/
theorem wordsAreBigEndian : Obligations.WordsAreBigEndian :=
  ⟨fun hi lo _ => ⟨rfl, toNat_byte_byte hi lo, BitVec.extractLsb'_append_eq_left, BitVec.extractLsb'_append_eq_right⟩,
    fun _ _ _ => memRead2_eq_concat⟩

end Sys2Proof.Machine
end

section
/-! Ignored bits (spec 30_encoding.md R74): what selects the row and what fills the line in classes 0x0, 0x5, 0x9,
0xE and 0xF. -/

namespace Sys2Proof.Machine

/-! ## The two levels of selection, class by class -/

theorem render_of_class0 {f : Fields} (h : f.opcodeClass = 0x0#4) : render f = renderClass0 f := by
  simp only [render, h]

theorem render_of_class5 {f : Fields} (h : f.opcodeClass = 0x5#4) : render f = lineSneReg5 f.x f.y := by
  simp only [render, h]

theorem render_of_class9 {f : Fields} (h : f.opcodeClass = 0x9#4) : render f = lineSneReg9 f.x f.y := by
  simp only [render, h]

theorem select_of_class0 {f : Fields} (h : f.opcodeClass = 0x0#4) : select f = selectClass0 f := by
  simp only [select, h]

theorem select_of_classE {f : Fields} (h : f.opcodeClass = 0xE#4) : select f = selectClassE f := by
  simp only [select, h]

/-- Class 0xF is the last arm of `select`, which writes no literal: the other fifteen fail by computation. -/
theorem select_of_classF {f : Fields} (h : f.opcodeClass = 0xF#4) : select f = selectClassF f := by
  simp only [select, h]
  rfl

theorem renderClass0_of_ne {f : Fields} (hcls : f.nnn ≠ 0x0E0) (hret : f.nnn ≠ 0x0EE) :
    renderClass0 f = lineSys f.nnn := by
  rw [renderClass0, if_neg hcls, if_neg hret]

theorem selectClass0_of_ne {f : Fields} (hcls : f.nnn ≠ 0x0E0) (hret : f.nnn ≠ 0x0EE) :
    selectClass0 f = .sys f.nnn := by
  unfold selectClass0
  split
  · contradiction
  · contradiction
  · rfl

/-- The row of class 0xE depends on `low_byte` alone (R66). -/
theorem midOf_selectClassE_congr {f g : Fields} (h : f.lowByte = g.lowByte) :
    midOf (selectClassE f) = midOf (selectClassE g) := by
  unfold selectClassE
  rw [h]
  split <;> rfl

/-- The row of class 0xF depends on `low_byte` alone (R66). -/
theorem midOf_selectClassF_congr {f g : Fields} (h : f.lowByte = g.lowByte) :
    midOf (selectClassF f) = midOf (selectClassF g) := by
  unfold selectClassF
  rw [h]
  split <;> rfl

/-! ## Words of these classes -/

theorem render_class5_word (x y n : Nibble) : render (fields (0x5#4 ++ x ++ y ++ n)) = lineSneReg5 x y := by
  obtain ⟨hclass, hx, hy, -⟩ := fields_nibbles 0x5#4 x y n
  rw [render_of_class5 hclass, hx, hy]

theorem render_class9_word (x y n : Nibble) : render (fields (0x9#4 ++ x ++ y ++ n)) = lineSneReg9 x y := by
  obtain ⟨hclass, hx, hy, -⟩ := fields_nibbles 0x9#4 x y n
  rw [render_of_class9 hclass, hx, hy]

theorem render_sys_word {a : Imm12} (hcls : a ≠ 0x0E0) (hret : a ≠ 0x0EE) :
    render (fields (0x0#4 ++ a)) = lineSys a := by
  obtain ⟨hclass, hnnn⟩ := fields_class_imm12 0x0#4 a
  rw [render_of_class0 hclass, renderClass0_of_ne (by rwa [hnnn]) (by rwa [hnnn]), hnnn]

theorem decodeWord_sys_word {a : Imm12} (hcls : a ≠ 0x0E0) (hret : a ≠ 0x0EE) :
    decodeWord (0x0#4 ++ a) = .sys a := by
  obtain ⟨hclass, hnnn⟩ := fields_class_imm12 0x0#4 a
  rw [decodeWord, select_of_class0 hclass, selectClass0_of_ne (by rwa [hnnn]) (by rwa [hnnn]), hnnn]

theorem midOf_classE_word (x x' : Nibble) (b : Byte) :
    midOf (decodeWord (0xE#4 ++ x ++ b)) = midOf (decodeWord (0xE#4 ++ x' ++ b)) := by
  obtain ⟨hclass, -, -, hlow⟩ := fields_class_x_byte 0xE#4 x b
  obtain ⟨hclass', -, -, hlow'⟩ := fields_class_x_byte 0xE#4 x' b
  rw [decodeWord, decodeWord, select_of_classE hclass, select_of_classE hclass']
  exact midOf_selectClassE_congr (hlow.trans hlow'.symm)

theorem midOf_classF_word (x x' : Nibble) (b : Byte) :
    midOf (decodeWord (0xF#4 ++ x ++ b)) = midOf (decodeWord (0xF#4 ++ x' ++ b)) := by
  obtain ⟨hclass, -, -, hlow⟩ := fields_class_x_byte 0xF#4 x b
  obtain ⟨hclass', -, -, hlow'⟩ := fields_class_x_byte 0xF#4 x' b
  rw [decodeWord, decodeWord, select_of_classF hclass, select_of_classF hclass']
  exact midOf_selectClassF_congr (hlow.trans hlow'.symm)

/-- SYS is three letters, so the name column adds three spaces (41_render_format.md R101). -/
theorem lineSys_eq (a : Imm12) : lineSys a = "SYS   ".toList ++ imm12 a := rfl

/-- Settles O32: `n` is no part of the lines of classes 0x5 and 0x9, class 0x0 is SYS off its two words, and classes
0xE and 0xF select by the low byte. -/
theorem ignoredBitsDoNotSelect : Obligations.IgnoredBitsDoNotSelect := by
  refine ⟨fun x y n n' => ⟨?_, ?_⟩, fun a hcls hret => ⟨?_, ?_⟩, fun x x' b => ⟨?_, ?_⟩⟩
  · rw [render_class5_word, render_class5_word]
  · rw [render_class9_word, render_class9_word]
  · rw [render_sys_word hcls hret, lineSys_eq]
  · rw [decodeWord_sys_word hcls hret, midOf]
  · exact midOf_classE_word x x' b
  · exact midOf_classF_word x x' b

end Sys2Proof.Machine
end

section
/-! The fields of a word (spec 40_field_extractor.md R91 to R98) in the shift-and-remainder forms of the rules. -/

namespace Sys2Proof

/-- A word is below 2^16, so the quotient that gives the class is a nibble already and R91's `mod 16` keeps it. -/
theorem fields_opcodeClass_toNat_mod (w : Word) : (fields w).opcodeClass.toNat = w.toNat / 4096 % 16 := by
  obtain ⟨hclass, -⟩ := fields_toNat w
  rw [← hclass, Nat.mod_eq_of_lt (fields w).opcodeClass.isLt]

/-- Settles O27: a shift is the quotient by a power of two, and the quotients and remainders are those of
`fields_toNat`. -/
theorem fieldsAreBitSlices : Obligations.FieldsAreBitSlices := by
  refine ⟨fun w => ?_, by decide⟩
  obtain ⟨-, hx, hy, hn, hkk, hnnn, -⟩ := fields_toNat w
  simp only [Nat.shiftRight_eq_div_pow]
  exact ⟨fields_opcodeClass_toNat_mod w, hx, hy, hn, hkk, hnnn, fields_kk_eq_lowByte w⟩

end Sys2Proof
end

section
/-! Operand formats (spec 41_render_format.md R101 to R108): the name column, and the value that each numeral of an
operand reads back as. -/

namespace Sys2Proof.Machine

/-! ## The name column -/

theorem pad6_length {name : Line} (h : name.length ≤ 6) : (pad6 name).length = 6 := by
  simp only [pad6, List.length_append, List.length_replicate, nameField_eq]
  omega

/-- Settles O49: the padding is R101's by definition, and it fills what the name leaves of the six columns. -/
theorem nameColumnIsSixWide : Obligations.NameColumnIsSixWide :=
  fun _ h => ⟨rfl, pad6_length h⟩

/-! ## Numerals -/

/-- A digit's place among the sixteen is the value it was formed from (R102). -/
@[simp] theorem hexDigitValue_hexdigit (d : Nibble) : hexDigitValue (hexdigit d) = some d.toNat := by
  revert d; decide

@[simp] theorem hexdigit_zero : hexdigit 0#4 = '0' := rfl

/-- Horner's rule: the value of a numeral whose digits are formed by `hexdigit`. -/
theorem numeralValue_map_hexdigit (radix : Nat) (ds : List Nibble) :
    numeralValue radix (ds.map hexdigit) = some (ds.foldl (fun v d => radix * v + d.toNat) 0) := by
  unfold numeralValue
  generalize 0 = v
  induction ds generalizing v with
  | nil => rfl
  | cons d ds ih =>
    simp only [List.map_cons, List.foldl_cons, Option.bind_some, hexDigitValue_hexdigit, Option.map_some]
    exact ih _

theorem numeralValue_one_digit (radix : Nat) (d : Nibble) : numeralValue radix [hexdigit d] = some d.toNat := by
  simpa using numeralValue_map_hexdigit radix [d]

theorem numeralValue_two_digits (radix : Nat) (d1 d0 : Nibble) :
    numeralValue radix [hexdigit d1, hexdigit d0] = some (radix * d1.toNat + d0.toNat) := by
  simpa using numeralValue_map_hexdigit radix [d1, d0]

/-- The first digit of a 12-bit immediate is `0` and adds nothing (R107). -/
theorem numeralValue_zero_then_three_digits (radix : Nat) (d2 d1 d0 : Nibble) :
    numeralValue radix ['0', hexdigit d2, hexdigit d1, hexdigit d0] =
      some (radix * (radix * d2.toNat + d1.toNat) + d0.toNat) := by
  simpa using numeralValue_map_hexdigit radix [0, d2, d1, d0]

/-! ## Register operands -/

/-- The first ten of the sixteen digits are the decimal ones (R102). -/
theorem hexdigit_mem_decimal {d : Nibble} (h : d ≤ 9) : hexdigit d ∈ "0123456789".toList := by
  revert d; decide

theorem dec_of_le {i : Nibble} (h : i ≤ 9) : dec i = [hexdigit i] := if_pos h

theorem dec_of_not_le {i : Nibble} (h : ¬ i ≤ 9) : dec i = ['1', hexdigit (i - 10)] := if_neg h

/-- The decimal numeral reads back as the index: above nine, the second digit is the index less ten (R103). -/
theorem numeralValue_dec (i : Nibble) : numeralValue 10 (dec i) = some i.toNat := by
  by_cases h : i ≤ 9
  · rw [dec_of_le h, numeralValue_one_digit]
  · have hsum : 10 * (1 : Nibble).toNat + (i - 10).toNat = i.toNat := by bv_omega
    rw [dec_of_not_le h, ← hsum]
    exact numeralValue_two_digits 10 1 (i - 10)

theorem dec_chars_decimal (i : Nibble) : ∀ c ∈ dec i, c ∈ "0123456789".toList := by
  by_cases h : i ≤ 9
  · rw [dec_of_le h, List.forall_mem_singleton]
    exact hexdigit_mem_decimal h
  · rw [dec_of_not_le h, List.forall_mem_cons, List.forall_mem_singleton]
    exact ⟨by decide, hexdigit_mem_decimal (by bv_omega)⟩

theorem regdec_length (i : Nibble) : (regdec i).length = if i ≤ 9 then 2 else 3 := by
  obtain ⟨h, hshape⟩ | ⟨h, hshape⟩ := regdec_cases i
  · rw [hshape, if_pos h]; rfl
  · rw [hshape, if_neg h]; rfl

/-- Settles O50: the numeral is one digit up to nine and `1` and a second digit above, which reads back as the
index. -/
theorem registerOperandIsDecimal : Obligations.RegisterOperandIsDecimal :=
  ⟨by decide, fun i => ⟨numeralValue_dec i, dec_chars_decimal i, rfl, rfl, regdec_length i⟩⟩

/-! ## Immediates -/

theorem toNat_eq_of_two_nibbles (v : Byte) :
    16 * (v.extractLsb' 4 4).toNat + (v.extractLsb' 0 4).toNat = v.toNat := by
  have h := v.isLt
  simp only [BitVec.extractLsb'_toNat, Nat.shiftRight_eq_div_pow]
  omega

theorem toNat_eq_of_three_nibbles (v : Imm12) :
    16 * (16 * (v.extractLsb' 8 4).toNat + (v.extractLsb' 4 4).toNat) + (v.extractLsb' 0 4).toNat = v.toNat := by
  have h := v.isLt
  simp only [BitVec.extractLsb'_toNat, Nat.shiftRight_eq_div_pow]
  omega

/-- Settles O51: the digits are those of the value's nibbles, and the nibbles make up the value in radix 16. -/
theorem immediateReadsBack : Obligations.ImmediateReadsBack := by
  refine ⟨fun v => ⟨_, _, rfl, ?_⟩, fun v => ⟨_, _, _, rfl, ?_⟩, fun v => ⟨_, imm4as8_eq v, ?_⟩⟩
  · rw [numeralValue_two_digits, toNat_eq_of_two_nibbles]
  · rw [numeralValue_zero_then_three_digits, toNat_eq_of_three_nibbles]
  · simpa using numeralValue_two_digits 16 0 v

end Sys2Proof.Machine
end

section
/-! The name column before operands (spec 41_render_format.md R110): which words have a bare name, the placeholder, or
a padded name and operands. -/

namespace Sys2Proof.Machine

/-! ## The first level of selection -/

theorem render_of_class8 {f : Fields} (h : f.opcodeClass = 0x8#4) : render f = renderClass8 f := by
  simp only [render, h]

theorem render_of_classE {f : Fields} (h : f.opcodeClass = 0xE#4) : render f = renderClassE f := by
  simp only [render, h]

/-- Class 0xF is the last arm of `render`, which writes no literal: the other fifteen fail by computation. -/
theorem render_of_classF {f : Fields} (h : f.opcodeClass = 0xF#4) : render f = renderClassF f := by
  simp only [render, h]
  rfl

/-! ## Lines with operands -/

/-- The line is one of the 18 names, padded, and an operand text that begins with a character other than a space. -/
def HasOperandText (line : Line) : Prop :=
  ∃ name ∈ paddedNames, ∃ c ops, c ≠ ' ' ∧ line = pad6 name ++ c :: ops

theorem hasOperandText_lineWith {name : Line} {c : Char} {ops : Line} (hname : name ∈ paddedNames) (hc : c ≠ ' ') :
    HasOperandText (lineWith name (c :: ops)) :=
  ⟨name, hname, c, ops, hc, rfl⟩

theorem hasOperandText_renderClass8 {f : Fields} (h : f.n ∈ mappedClass8) : HasOperandText (renderClass8 f) := by
  unfold renderClass8
  split
  case h_10 => simp_all [mappedClass8]
  all_goals exact hasOperandText_lineWith (by decide) (by decide)

theorem hasOperandText_renderClassE {f : Fields} (h : f.lowByte ∈ mappedClassE) :
    HasOperandText (renderClassE f) := by
  unfold renderClassE
  split
  case h_3 => simp_all [mappedClassE]
  all_goals exact hasOperandText_lineWith (by decide) (by decide)

theorem hasOperandText_renderClassF {f : Fields} (h : f.lowByte ∈ mappedClassF) :
    HasOperandText (renderClassF f) := by
  unfold renderClassF
  split
  case h_10 => simp_all [mappedClassF]
  all_goals exact hasOperandText_lineWith (by decide) (by decide)

/-! ## The placeholder -/

theorem renderClass8_of_not_mem {f : Fields} (h : f.n ∉ mappedClass8) : renderClass8 f = lineUnmapped := by
  unfold renderClass8
  split
  case h_10 => rfl
  all_goals simp_all [mappedClass8]

theorem renderClassE_of_not_mem {f : Fields} (h : f.lowByte ∉ mappedClassE) : renderClassE f = lineUnmapped := by
  unfold renderClassE
  split
  case h_3 => rfl
  all_goals simp_all [mappedClassE]

theorem renderClassF_of_not_mem {f : Fields} (h : f.lowByte ∉ mappedClassF) : renderClassF f = lineUnmapped := by
  unfold renderClassF
  split
  case h_10 => rfl
  all_goals simp_all [mappedClassF]

/-- The three unmapped sets, said of the fields of the word (30_encoding.md R73). -/
theorem isUnmapped_iff (w : Word) :
    isUnmapped w = true ↔
      ((fields w).opcodeClass = 0x8#4 ∧ (fields w).n ∉ mappedClass8) ∨
      ((fields w).opcodeClass = 0xE#4 ∧ (fields w).lowByte ∉ mappedClassE) ∨
      ((fields w).opcodeClass = 0xF#4 ∧ (fields w).lowByte ∉ mappedClassF) := by
  simp only [isUnmapped, fields, Bool.or_eq_true, Bool.and_eq_true, beq_iff_eq, Bool.not_eq_true',
    List.contains_eq_mem, decide_eq_false_iff_not, or_assoc]
  exact Iff.rfl

theorem render_of_isUnmapped {w : Word} (h : isUnmapped w = true) : render (fields w) = lineUnmapped := by
  obtain ⟨hclass, hn⟩ | ⟨hclass, hlow⟩ | ⟨hclass, hlow⟩ := (isUnmapped_iff w).mp h
  · rw [render_of_class8 hclass, renderClass8_of_not_mem hn]
  · rw [render_of_classE hclass, renderClassE_of_not_mem hlow]
  · rw [render_of_classF hclass, renderClassF_of_not_mem hlow]

/-! ## The other words -/

/-- In class 0x0 the 12-bit field determines the word (40_field_extractor.md R99). -/
theorem nnn_ne_of_class0 {w : Word} {a : Imm12} (hclass : (fields w).opcodeClass = 0x0#4) (hw : w ≠ 0x0#4 ++ a) :
    (fields w).nnn ≠ a := by
  intro hnnn
  apply hw
  rw [word_eq_class_imm12 w, hclass, hnnn]

/-- Class by class: class 0x0 is SYS off its two bare words, classes 0x8, 0xE and 0xF have a row of their own on the
mapped values, and every other class is one row with operands. -/
theorem hasOperandText_render {w : Word} (hcls : w ≠ 0x00E0) (hret : w ≠ 0x00EE) (hmapped : isUnmapped w = false) :
    HasOperandText (render (fields w)) := by
  have hsets := mt (isUnmapped_iff w).mpr (ne_true_of_eq_false hmapped)
  simp only [not_or, not_and, not_not] at hsets
  obtain ⟨hclass8, hclassE, hclassF⟩ := hsets
  unfold render
  split
  case h_1 hclass =>
    rw [renderClass0_of_ne (nnn_ne_of_class0 hclass hcls) (nnn_ne_of_class0 hclass hret)]
    exact hasOperandText_lineWith (by decide) (by decide)
  case h_9 hclass => exact hasOperandText_renderClass8 (hclass8 hclass)
  case h_15 hclass => exact hasOperandText_renderClassE (hclassE hclass)
  case h_16 h0 h1 h2 h3 h4 h5 h6 h7 h8 h9 hA hB hC hD hE =>
    exact hasOperandText_renderClassF (hclassF (nibble_eq_F_of_ne _ h0 h1 h2 h3 h4 h5 h6 h7 h8 h9 hA hB hC hD hE))
  all_goals exact hasOperandText_lineWith (by decide) (by decide)

/-- Settles O52: off the two bare names, a word is unmapped and has the placeholder, or has operands. -/
theorem namePaddedOnlyBeforeOperands : Obligations.NamePaddedOnlyBeforeOperands := by
  intro w
  by_cases hcls : w = 0x00E0
  · exact .inl ⟨hcls, by rw [hcls]; decide⟩
  by_cases hret : w = 0x00EE
  · exact .inr (.inl ⟨hret, by rw [hret]; decide⟩)
  cases hmapped : isUnmapped w with
  | true => exact .inr (.inr (.inl ⟨rfl, render_of_isUnmapped hmapped⟩))
  | false => exact .inr (.inr (.inr ⟨hcls, hret, rfl, hasOperandText_render hcls hret hmapped⟩))

end Sys2Proof.Machine
end

section
/-! The decoder and the encoder (spec 30_encoding.md R62, R72; 40_field_extractor.md R99): decoding loses no bit of a
word, and a word decodes to a well-formed instruction exactly when it is the instruction's word. -/

namespace Sys2Proof

open Sys2Proof.Machine

/-- In class 0x8 the row is selected by the low nibble (R66). -/
theorem select_of_class8 {f : Fields} (h : f.opcodeClass = 0x8#4) : select f = selectClass8 f := by
  simp only [select, h]

/-! ## The word of a decoded instruction -/

theorem fields_word (w : Word) : (fields w).word = w := (word_eq_class_imm12 w).symm

theorem encode_selectClass0 {w : Word} (hclass : (fields w).opcodeClass = 0x0#4) :
    encode (selectClass0 (fields w)) = w := by
  have hw := word_eq_class_imm12 w
  rw [hclass] at hw
  unfold selectClass0
  split
  case h_1 hnnn => rw [hw, hnnn]; rfl
  case h_2 hnnn => rw [hw, hnnn]; rfl
  case h_3 => exact hw.symm

theorem encode_selectClass8 {w : Word} (hclass : (fields w).opcodeClass = 0x8#4) :
    encode (selectClass8 (fields w)) = w := by
  have hw := word_eq_nibbles w
  rw [hclass] at hw
  unfold selectClass8
  split
  case h_10 => exact fields_word w
  all_goals rename_i hn; rw [hn] at hw; exact hw.symm

theorem encode_selectClassE {w : Word} (hclass : (fields w).opcodeClass = 0xE#4) :
    encode (selectClassE (fields w)) = w := by
  have hw := word_eq_class_x_byte w
  rw [hclass] at hw
  unfold selectClassE
  split
  case h_3 => exact fields_word w
  all_goals rename_i hlow; rw [hlow] at hw; exact hw.symm

theorem encode_selectClassF {w : Word} (hclass : (fields w).opcodeClass = 0xF#4) :
    encode (selectClassF (fields w)) = w := by
  have hw := word_eq_class_x_byte w
  rw [hclass] at hw
  unfold selectClassF
  split
  case h_10 => exact fields_word w
  all_goals rename_i hlow; rw [hlow] at hw; exact hw.symm

/-- Each class has one format (R62), and the row's operands are the fields of that format. -/
theorem encode_decodeWord (w : Word) : encode (decodeWord w) = w := by
  have himm := word_eq_class_imm12 w
  have hbyte := word_eq_class_x_byte w
  have hnibs := word_eq_nibbles w
  unfold decodeWord select
  split
  case h_1 hclass => exact encode_selectClass0 hclass
  case h_9 hclass => exact encode_selectClass8 hclass
  case h_15 hclass => exact encode_selectClassE hclass
  case h_16 h0 h1 h2 h3 h4 h5 h6 h7 h8 h9 hA hB hC hD hE =>
    exact encode_selectClassF (nibble_eq_F_of_ne _ h0 h1 h2 h3 h4 h5 h6 h7 h8 h9 hA hB hC hD hE)
  case h_2 hclass | h_3 hclass | h_11 hclass | h_12 hclass => rw [hclass] at himm; exact himm.symm
  case h_6 hclass | h_10 hclass | h_14 hclass => rw [hclass] at hnibs; exact hnibs.symm
  all_goals rename_i hclass; rw [hclass] at hbyte; exact hbyte.symm

/-! ## The instruction of an encoded word -/

theorem selectClass8_of_not_mem {f : Fields} (h : f.n ∉ mappedClass8) : selectClass8 f = .unmapped f.word := by
  unfold selectClass8
  split
  case h_10 => rfl
  all_goals simp_all [mappedClass8]

theorem selectClassE_of_not_mem {f : Fields} (h : f.lowByte ∉ mappedClassE) :
    selectClassE f = .unmapped f.word := by
  unfold selectClassE
  split
  case h_3 => rfl
  all_goals simp_all [mappedClassE]

theorem selectClassF_of_not_mem {f : Fields} (h : f.lowByte ∉ mappedClassF) :
    selectClassF f = .unmapped f.word := by
  unfold selectClassF
  split
  case h_10 => rfl
  all_goals simp_all [mappedClassF]

theorem decodeWord_of_isUnmapped {w : Word} (h : isUnmapped w = true) : decodeWord w = .unmapped w := by
  obtain ⟨hclass, hn⟩ | ⟨hclass, hlow⟩ | ⟨hclass, hlow⟩ := (isUnmapped_iff w).mp h
  · rw [decodeWord, select_of_class8 hclass, selectClass8_of_not_mem hn, fields_word]
  · rw [decodeWord, select_of_classE hclass, selectClassE_of_not_mem hlow, fields_word]
  · rw [decodeWord, select_of_classF hclass, selectClassF_of_not_mem hlow, fields_word]

/-- Format by format: the fields of the word are the operands it was built from. -/
theorem decodeWord_encode {i : Instr} (h : i.wf = true) : decodeWord (encode i) = i := by
  cases i with
  | cls | ret => decide
  | sys a =>
    simp only [Instr.wf, Bool.and_eq_true, bne_iff_ne] at h
    obtain ⟨hcls, hret⟩ := h
    exact decodeWord_sys_word hcls hret
  | unmapped w => exact decodeWord_of_isUnmapped h
  | jp a | call a | ldI a | jpV0 a => simp only [encode, decodeWord, select, fields_class_imm12]
  | seImm x b | sneImm x b | ldImm x b | addImm x b | rnd x b =>
    simp only [encode, decodeWord, select, fields_class_x_byte]
  | sneReg5 x y n | sneReg9 x y n | drw x y n => simp only [encode, decodeWord, select, fields_nibbles]
  | skp x | sknp x => simp only [encode, decodeWord, select, selectClassE, fields_class_x_byte]
  | ldXDt x | ldXK x | ldDtX x | ldStX x | addIX x | ldFX x | ldBX x | ldIindX x | ldXIind x =>
    simp only [encode, decodeWord, select_of_classF, selectClassF, fields_class_x_byte]
  | _ x y => simp only [encode, decodeWord, select, selectClass8, fields_nibbles]

/-- A row is selected by exactly the word that its operands make up. -/
theorem decodeWord_eq_iff {i : Instr} (h : i.wf = true) (w : Word) : decodeWord w = i ↔ w = encode i :=
  ⟨fun hi => by rw [← hi, encode_decodeWord], fun hw => by rw [hw, decodeWord_encode h]⟩

end Sys2Proof
end

section
/-! The rows of classes 0x0 to 0x7 and the class-0x9 twin of the class-0x5 row (spec 42_class_0_to_7.md;
44_class_9_to_D.md R160). -/

namespace Sys2Proof.Machine

/-- Every row emits its line and moves the cursor to the next word, in any phase (46_pipeline_and_host.md R191). -/
theorem exec_of_lineOf {i : Instr} {line : Line} (h : lineOf i = line) (s : State) :
    exec i s = .next { s with out := s.out ++ [line], pos := s.pos + 2 } := by
  rw [exec_eq_next, h]
  rfl

/-- Settles O34: each of the two rows has one word, and its line is the bare name. -/
theorem clsAndRetRows : Obligations.ClsAndRetRows :=
  fun w s => ⟨decodeWord_eq_iff rfl w, exec_of_lineOf rfl s, decodeWord_eq_iff rfl w, exec_of_lineOf rfl s⟩

/-- SYS takes what the earlier rows of class 0x0 leave: the words of CLS and RET decode to other instructions. -/
theorem decodeWord_eq_sys_iff (w : Word) (a : Imm12) :
    decodeWord w = .sys a ↔ w = 0x0#4 ++ a ∧ w ≠ 0x00E0 ∧ w ≠ 0x00EE := by
  constructor
  · intro hsys
    refine ⟨by rw [← encode_decodeWord w, hsys, encode], fun hcls => ?_, fun hret => ?_⟩
    · have hdec : decodeWord w = .cls := (decodeWord_eq_iff rfl w).mpr hcls
      cases hsys.symm.trans hdec
    · have hdec : decodeWord w = .ret := (decodeWord_eq_iff rfl w).mpr hret
      cases hsys.symm.trans hdec
  · rintro ⟨rfl, hcls, hret⟩
    exact decodeWord_sys_word (fun ha => hcls (by rw [ha]; rfl)) (fun ha => hret (by rw [ha]; rfl))

/-- Settles O35: class 0x0 without the words of CLS and RET, and the address in `#` and four digits. -/
theorem sysRow : Obligations.SysRow :=
  fun w a s => ⟨decodeWord_eq_sys_iff w a, exec_of_lineOf (i := .sys a) (lineSys_eq a) s, rfl⟩

/-- Settles O36: the class selects the row, and the jump and the call only emit their lines. -/
theorem jpAndCallRows : Obligations.JpAndCallRows :=
  fun w _ s => ⟨decodeWord_eq_iff rfl w, exec_of_lineOf rfl s, decodeWord_eq_iff rfl w, exec_of_lineOf rfl s, rfl, rfl⟩

theorem regImm8_length (x : Nibble) (kk : Byte) : (regImm8 x kk).length = if x ≤ 9 then 7 else 8 := by
  have hlen : (regImm8 x kk).length = (regdec x).length + 5 := by
    simp only [regImm8, List.length_append, imm8_length]
    rfl
  rw [hlen, regdec_length]
  split <;> rfl

/-- Settles O37: the class selects the row, the operands are `regImm8 x kk`, and only the register's numeral varies in
length. -/
theorem byteImmediateRows : Obligations.ByteImmediateRows := by
  intro w x kk s operands
  have hlen : operands.length = if x ≤ 9 then 7 else 8 := regImm8_length x kk
  refine ⟨?_, decodeWord_eq_iff rfl w, exec_of_lineOf rfl s, decodeWord_eq_iff rfl w, exec_of_lineOf rfl s,
    decodeWord_eq_iff rfl w, exec_of_lineOf rfl s, decodeWord_eq_iff rfl w, exec_of_lineOf rfl s⟩
  rw [hlen]
  split <;> rfl

theorem regReg_length_bounds (x y : Nibble) : 6 ≤ (regReg x y).length ∧ (regReg x y).length ≤ 8 := by
  have hlen : (regReg x y).length = (regdec x).length + 2 + (regdec y).length := by
    simp only [regReg, List.length_append]
    rfl
  rw [hlen, regdec_length, regdec_length]
  split <;> split <;> decide

/-- Both classes have the name SNE and the same operands, so one line (R127, R160). -/
theorem lineSneReg5_eq_lineSneReg9 (x y : Nibble) : lineSneReg5 x y = lineSneReg9 x y := rfl

theorem lineSneReg9_length_bounds (x y : Nibble) : 12 ≤ (lineSneReg9 x y).length ∧ (lineSneReg9 x y).length ≤ 14 := by
  obtain ⟨hlo, hhi⟩ := regReg_length_bounds x y
  have hpad : (pad6 "SNE".toList).length = 6 := pad6_length (by decide)
  simp only [lineSneReg9, lineWith, List.length_append, hpad]
  omega

/-- Settles O38: two classes, one line; `n` is an operand of the instruction and no part of the line. -/
theorem sneRegisterRows : Obligations.SneRegisterRows := by
  intro w x y n s line
  have hline : lineSneReg9 x y = line := rfl
  refine ⟨hline ▸ lineSneReg9_length_bounds x y, decodeWord_eq_iff rfl w, ?_, decodeWord_eq_iff rfl w, ?_⟩
  · exact exec_of_lineOf (i := .sneReg5 x y n) ((lineSneReg5_eq_lineSneReg9 x y).trans hline) s
  · exact exec_of_lineOf (i := .sneReg9 x y n) hline s

end Sys2Proof.Machine
end

section
/-! The rows of class 0x8 (spec 43_class_8.md R140 to R148): seven with plain operands, and the two shifts with the
second register in braces. -/

namespace Sys2Proof.Machine

/-- Settles O39: the low nibble selects the row, and the seven rows differ in their names only; the operands are
`regReg x y`. -/
theorem classEightPlainRows : Obligations.ClassEightPlainRows := by
  intro w x y s operands
  have hlen : 6 ≤ operands.length ∧ operands.length ≤ 8 := regReg_length_bounds x y
  exact ⟨by omega, decodeWord_eq_iff rfl w, exec_of_lineOf rfl s, decodeWord_eq_iff rfl w, exec_of_lineOf rfl s,
    decodeWord_eq_iff rfl w, exec_of_lineOf rfl s, decodeWord_eq_iff rfl w, exec_of_lineOf rfl s,
    decodeWord_eq_iff rfl w, exec_of_lineOf rfl s, decodeWord_eq_iff rfl w, exec_of_lineOf rfl s,
    decodeWord_eq_iff rfl w, exec_of_lineOf rfl s⟩

/-- The braces are two characters more than the operands of the plain rows. -/
theorem regBracedReg_length (x y : Nibble) : (regBracedReg x y).length = (regReg x y).length + 2 := by
  simp only [regBracedReg, bracedReg, regReg, List.length_append, List.length_cons, List.length_nil]
  omega

/-- The brace opens before the comma, and both braces are given by their codes (41_render_format.md R109, R112). -/
theorem regBracedReg_eq (x y : Nibble) :
    regBracedReg x y = regdec x ++ [Char.ofNat 0x7B] ++ ", ".toList ++ regdec y ++ [Char.ofNat 0x7D] := by
  change regdec x ++ ([Char.ofNat 0x7B] ++ ", ".toList ++ regdec y ++ [Char.ofNat 0x7D]) = _
  simp only [List.append_assoc]

/-- Settles O40: the operands of both shifts are `regBracedReg x y`, which always has the second register. -/
theorem shiftRowsPrintBraces : Obligations.ShiftRowsPrintBraces := by
  intro w x y s operands
  have hop : regBracedReg x y = operands := regBracedReg_eq x y
  have hlen := regBracedReg_length x y
  have hbounds := regReg_length_bounds x y
  rw [← hop]
  exact ⟨by omega, decodeWord_eq_iff rfl w, exec_of_lineOf rfl s, decodeWord_eq_iff rfl w, exec_of_lineOf rfl s⟩

end Sys2Proof.Machine
end

section
/-! The fall-through row (spec 30_encoding.md R73; 43_class_8.md R149; 45_class_E_F.md R172, R182): every word decodes
to a well-formed instruction, so the unmapped words are those of the three sets. -/

namespace Sys2Proof

open Sys2Proof.Machine

/-! ## A decoded instruction is well-formed -/

theorem wf_selectClass0 (f : Fields) : (selectClass0 f).wf = true := by
  unfold selectClass0
  split
  case h_3 hcls hret => simpa [Instr.wf] using ⟨hcls, hret⟩
  all_goals rfl

theorem wf_selectClass8 {w : Word} (hclass : (fields w).opcodeClass = 0x8#4) :
    (selectClass8 (fields w)).wf = true := by
  by_cases hn : (fields w).n ∈ mappedClass8
  · unfold selectClass8
    split
    case h_10 => simp_all [mappedClass8]
    all_goals rfl
  · rw [selectClass8_of_not_mem hn, fields_word]
    exact (isUnmapped_iff w).mpr (.inl ⟨hclass, hn⟩)

theorem wf_selectClassE {w : Word} (hclass : (fields w).opcodeClass = 0xE#4) :
    (selectClassE (fields w)).wf = true := by
  by_cases hlow : (fields w).lowByte ∈ mappedClassE
  · unfold selectClassE
    split
    case h_3 => simp_all [mappedClassE]
    all_goals rfl
  · rw [selectClassE_of_not_mem hlow, fields_word]
    exact (isUnmapped_iff w).mpr (.inr (.inl ⟨hclass, hlow⟩))

theorem wf_selectClassF {w : Word} (hclass : (fields w).opcodeClass = 0xF#4) :
    (selectClassF (fields w)).wf = true := by
  by_cases hlow : (fields w).lowByte ∈ mappedClassF
  · unfold selectClassF
    split
    case h_10 => simp_all [mappedClassF]
    all_goals rfl
  · rw [selectClassF_of_not_mem hlow, fields_word]
    exact (isUnmapped_iff w).mpr (.inr (.inr ⟨hclass, hlow⟩))

/-- Only the classes with a second level can give SYS or the fall-through row, the two rows that `Instr.wf` checks. -/
theorem decodeWord_wf (w : Word) : (decodeWord w).wf = true := by
  unfold decodeWord select
  split
  case h_1 => exact wf_selectClass0 (fields w)
  case h_9 hclass => exact wf_selectClass8 hclass
  case h_15 hclass => exact wf_selectClassE hclass
  case h_16 h0 h1 h2 h3 h4 h5 h6 h7 h8 h9 hA hB hC hD hE =>
    exact wf_selectClassF (nibble_eq_F_of_ne _ h0 h1 h2 h3 h4 h5 h6 h7 h8 h9 hA hB hC hD hE)
  all_goals rfl

/-- The fall-through instruction carries its own word, and no mapped word falls through. -/
theorem decodeWord_eq_unmapped_iff (w v : Word) : decodeWord w = .unmapped v ↔ v = w ∧ isUnmapped w = true := by
  constructor
  · intro hdec
    have hword : v = w := by rw [← encode_decodeWord w, hdec, encode]
    have hwf : (Instr.unmapped v).wf = true := hdec ▸ decodeWord_wf w
    exact ⟨hword, hword ▸ hwf⟩
  · rintro ⟨rfl, h⟩
    exact decodeWord_of_isUnmapped h

/-! ## The three sets, by the words they hold -/

/-- A condition on class and low nibble is a condition on the word written as four nibbles. -/
theorem class_and_n_iff (w : Word) (c : Nibble) (P : Nibble → Prop) :
    ((fields w).opcodeClass = c ∧ P (fields w).n) ↔ ∃ x y n : Nibble, P n ∧ w = c ++ x ++ y ++ n := by
  constructor
  · rintro ⟨rfl, hP⟩
    exact ⟨_, _, _, hP, word_eq_nibbles w⟩
  · rintro ⟨x, y, n, hP, rfl⟩
    obtain ⟨hclass, -, -, hn⟩ := fields_nibbles c x y n
    exact ⟨hclass, hn.symm ▸ hP⟩

/-- A condition on class and low byte is a condition on the word written as class, register and byte. -/
theorem class_and_lowByte_iff (w : Word) (c : Nibble) (P : Byte → Prop) :
    ((fields w).opcodeClass = c ∧ P (fields w).lowByte) ↔ ∃ (x : Nibble) (b : Byte), P b ∧ w = c ++ x ++ b := by
  constructor
  · rintro ⟨rfl, hP⟩
    exact ⟨_, _, hP, word_eq_class_x_byte w⟩
  · rintro ⟨x, b, hP, rfl⟩
    obtain ⟨hclass, -, -, hlow⟩ := fields_class_x_byte c x b
    exact ⟨hclass, hlow.symm ▸ hP⟩

/-- The seven low nibbles without a row (R149). -/
theorem not_mem_mappedClass8_iff (n : Nibble) :
    n ∉ mappedClass8 ↔ n ∈ [0x8#4, 0x9#4, 0xA#4, 0xB#4, 0xC#4, 0xD#4, 0xF#4] := by
  revert n; decide

/-- Settles O47: a word falls through exactly when it is in one of the three unmapped sets, and its line is the
placeholder. -/
theorem unmappedRow : Obligations.UnmappedRow := by
  intro w v s
  refine ⟨?_, exec_of_lineOf rfl s⟩
  rw [decodeWord_eq_unmapped_iff, isUnmapped_iff, not_mem_mappedClass8_iff]
  exact and_congr_right fun _ => or_congr (class_and_n_iff w 0x8#4 _)
    (or_congr (class_and_lowByte_iff w 0xE#4 (· ∉ mappedClassE)) (class_and_lowByte_iff w 0xF#4 (· ∉ mappedClassF)))

end Sys2Proof
end

section
/-! The rows of classes 0xA, 0xB and 0xD (spec 44_class_9_to_D.md R161, R162, R164): the two with a literal first
operand and an address, and the one with a single nibble as its last operand. -/

namespace Sys2Proof.Machine

/-- Settles O41: the class selects the row, and the whole 12-bit field is printed after the literal, so the lengths do
not vary. -/
theorem loadIndexAndJumpV0Rows : Obligations.LoadIndexAndJumpV0Rows :=
  fun w _ s => ⟨decodeWord_eq_iff rfl w, exec_of_lineOf rfl s, decodeWord_eq_iff rfl w, exec_of_lineOf rfl s, rfl, rfl⟩

/-- The nibble goes through the 8-bit format, whose first digit is then `0` (R164). -/
theorem lineDrw_eq (x y n : Nibble) :
    lineDrw x y n = "DRW   ".toList ++ regdec x ++ ", ".toList ++ regdec y ++ ", #0".toList ++ [hexdigit n] := by
  have hname : pad6 "DRW".toList = "DRW   ".toList := rfl
  have hsep : separator = ", ".toList := rfl
  have hnibble : ", ".toList ++ imm4as8 n = ", #0".toList ++ [hexdigit n] := by rw [imm4as8_eq]; rfl
  simp only [lineDrw, lineWith, regReg, hname, hsep, hnibble, List.append_assoc]

/-- The nibble adds five characters to the operands of a two-register row, and only the registers vary. -/
theorem lineDrw_length_bounds (x y n : Nibble) : 17 ≤ (lineDrw x y n).length ∧ (lineDrw x y n).length ≤ 19 := by
  obtain ⟨hlo, hhi⟩ := regReg_length_bounds x y
  have hpad : (pad6 "DRW".toList).length = 6 := pad6_length (by decide)
  have hsep : separator.length = 2 := rfl
  simp only [lineDrw, lineWith, List.length_append, hpad, hsep, imm4as8_length]
  omega

/-- Settles O43: the class selects the row, all three lower nibbles are its operands, and its line is `lineDrw`. -/
theorem drwRow : Obligations.DrwRow := by
  intro w x y n s line
  have hline : lineDrw x y n = line := lineDrw_eq x y n
  exact ⟨decodeWord_eq_iff rfl w, exec_of_lineOf (i := .drw x y n) hline s, hline ▸ lineDrw_length_bounds x y n⟩

end Sys2Proof.Machine
end

section
/-! The mapped rows of classes 0xE and 0xF (spec 45_class_E_F.md R170, R171, R173 to R181): the low byte selects the
row, and the register is the only operand that varies. -/

namespace Sys2Proof.Machine

/-- Settles O44: the low byte selects the row, and only the register's numeral varies in length. -/
theorem skipKeyRows : Obligations.SkipKeyRows := by
  intro w x s
  refine ⟨?_, decodeWord_eq_iff rfl w, exec_of_lineOf rfl s, decodeWord_eq_iff rfl w, exec_of_lineOf rfl s⟩
  rw [regdec_length]
  split <;> rfl

/-- A second operand that is a literal stands, with the comma before it, after the name and the register. -/
theorem lineWith_regLiteral (name : Line) (x : Nibble) (literal : Line) :
    lineWith name (regLiteral x literal) = pad6 name ++ regdec x ++ (separator ++ literal) := by
  simp only [lineWith, regLiteral, List.append_assoc]

/-- Settles O45: the low byte selects the row, and the three lines are one name and register with three literals after
it. -/
theorem registerThenLiteralRows : Obligations.RegisterThenLiteralRows := by
  intro w x s reg
  have hlen : reg.length = if x ≤ 9 then 8 else 9 := by
    rw [List.length_append, regdec_length]
    split <;> rfl
  exact ⟨hlen,
    decodeWord_eq_iff rfl w, exec_of_lineOf (i := .ldXDt x) (lineWith_regLiteral _ x _) s,
    decodeWord_eq_iff rfl w, exec_of_lineOf (i := .ldXK x) (lineWith_regLiteral _ x _) s,
    decodeWord_eq_iff rfl w, exec_of_lineOf (i := .ldXIind x) (lineWith_regLiteral _ x _) s⟩

/-- Settles O46: the low byte selects the row, and each line is the name and the literal, which do not vary, before the
register. -/
theorem literalThenRegisterRows : Obligations.LiteralThenRegisterRows :=
  fun w x s => ⟨regdec_length x,
    decodeWord_eq_iff rfl w, exec_of_lineOf rfl s, decodeWord_eq_iff rfl w, exec_of_lineOf rfl s,
    decodeWord_eq_iff rfl w, exec_of_lineOf rfl s, decodeWord_eq_iff rfl w, exec_of_lineOf rfl s,
    decodeWord_eq_iff rfl w, exec_of_lineOf rfl s, decodeWord_eq_iff rfl w, exec_of_lineOf rfl s⟩

end Sys2Proof.Machine
end

section
/-! The word step (spec 46_pipeline_and_host.md R191): the row that the decoder selects has the line of `render`. -/

namespace Sys2Proof.Machine

/-! ## The dispatch to instructions and `render` are one map (30_encoding.md R70) -/

theorem lineOf_selectClass0 (f : Fields) : lineOf (selectClass0 f) = renderClass0 f := by
  unfold selectClass0
  split
  case h_1 hcls => rw [renderClass0, hcls]; rfl
  case h_2 hret => rw [renderClass0, hret]; rfl
  case h_3 hcls hret => exact (renderClass0_of_ne hcls hret).symm

theorem lineOf_selectClass8 (f : Fields) : lineOf (selectClass8 f) = renderClass8 f := by
  unfold selectClass8
  split <;> simp only [renderClass8, lineOf, *]

theorem lineOf_selectClassE (f : Fields) : lineOf (selectClassE f) = renderClassE f := by
  unfold selectClassE
  split <;> simp only [renderClassE, lineOf, *]

theorem lineOf_selectClassF (f : Fields) : lineOf (selectClassF f) = renderClassF f := by
  unfold selectClassF
  split <;> simp only [renderClassF, lineOf, *]

theorem lineOf_select (f : Fields) : lineOf (select f) = render f := by
  unfold select
  split
  case h_1 hclass => rw [render_of_class0 hclass, lineOf_selectClass0]
  case h_9 hclass => rw [render_of_class8 hclass, lineOf_selectClass8]
  case h_15 hclass => rw [render_of_classE hclass, lineOf_selectClassE]
  case h_16 h0 h1 h2 h3 h4 h5 h6 h7 h8 h9 hA hB hC hD hE =>
    rw [render_of_classF (nibble_eq_F_of_ne _ h0 h1 h2 h3 h4 h5 h6 h7 h8 h9 hA hB hC hD hE), lineOf_selectClassF]
  all_goals simp only [render, lineOf, *]

theorem lineOf_decodeWord (w : Word) : lineOf (decodeWord w) = render (fields w) := lineOf_select (fields w)

/-- Settles O12: the two bytes are the fetched word, and its row emits the line of `render` and advances. -/
theorem wordStepFetchesRendersEmits : Obligations.WordStepFetchesRendersEmits := by
  intro s hi lo hphase hin hhi hlo
  have hfetch : fetchWord s = some (hi ++ lo) := memRead2_eq_concat hin hhi hlo
  rw [step_word hphase (by omega) hfetch]
  exact exec_of_lineOf (lineOf_decodeWord (hi ++ lo)) s

end Sys2Proof.Machine
end

section
/-! The opcode ROM (spec 30_encoding.md R71, R72, R79): the first matching row of a word is the row of the decoded
instruction, and its template filled with the word's fields is the line. -/

namespace Sys2Proof.Machine

/-! ## What a row's test fixes of a word -/

/-- A mask with ones all over a bit-field leaves the field as it is. -/
theorem extractLsb'_and_of_allOnes {m : Word} {start len : Nat} (h : m.extractLsb' start len = BitVec.allOnes len)
    (w : Word) : (w &&& m).extractLsb' start len = w.extractLsb' start len := by
  rw [BitVec.extractLsb'_and, h, BitVec.and_allOnes]

theorem RomRow.selects_iff (r : RomRow) (w : Word) :
    r.selects w = true ↔ w &&& r.mask = r.pattern ∧ w ∉ r.excludes := by
  simp only [RomRow.selects, Bool.and_eq_true, beq_iff_eq, Bool.not_eq_true', List.contains_eq_mem,
    decide_eq_false_iff_not]

/-- The mask covers every field by which the classes of the row's words select: the class, and in the classes with a
second level the field of that level (R66). -/
abbrev RomRow.TestsSelector (r : RomRow) : Prop :=
  (fields r.mask).opcodeClass = BitVec.allOnes 4 ∧
  ((fields r.pattern).opcodeClass = 0x0#4 → (fields r.mask).nnn = BitVec.allOnes 12) ∧
  ((fields r.pattern).opcodeClass = 0x8#4 → (fields r.mask).n = BitVec.allOnes 4) ∧
  ((fields r.pattern).opcodeClass = 0xE#4 → (fields r.mask).lowByte = BitVec.allOnes 8) ∧
  ((fields r.pattern).opcodeClass = 0xF#4 → (fields r.mask).lowByte = BitVec.allOnes 8)

/-! ## The row depends on these fields alone -/

/-- The row of class 0x0 depends on `nnn` alone (R66). -/
theorem midOf_selectClass0_congr {f g : Fields} (h : f.nnn = g.nnn) :
    midOf (selectClass0 f) = midOf (selectClass0 g) := by
  rw [selectClass0, selectClass0, h]

/-- The row of class 0x8 depends on `n` alone (R66). -/
theorem midOf_selectClass8_congr {f g : Fields} (h : f.n = g.n) :
    midOf (selectClass8 f) = midOf (selectClass8 g) := by
  unfold selectClass8
  rw [h]
  split <;> rfl

theorem midOf_select_congr {f g : Fields} (hclass : f.opcodeClass = g.opcodeClass)
    (h0 : f.opcodeClass = 0x0#4 → f.nnn = g.nnn) (h8 : f.opcodeClass = 0x8#4 → f.n = g.n)
    (hE : f.opcodeClass = 0xE#4 → f.lowByte = g.lowByte) (hF : f.opcodeClass = 0xF#4 → f.lowByte = g.lowByte) :
    midOf (select f) = midOf (select g) := by
  unfold select
  rw [← hclass]
  split
  case h_1 hc => exact midOf_selectClass0_congr (h0 hc)
  case h_9 hc => exact midOf_selectClass8_congr (h8 hc)
  case h_15 hc => exact midOf_selectClassE_congr (hE hc)
  case h_16 c0 c1 c2 c3 c4 c5 c6 c7 c8 c9 cA cB cC cD cE =>
    exact midOf_selectClassF_congr (hF (nibble_eq_F_of_ne _ c0 c1 c2 c3 c4 c5 c6 c7 c8 c9 cA cB cC cD cE))
  all_goals rfl

/-- A word that such a row selects is in the same row as the row's own pattern. -/
theorem midOf_decodeWord_of_selects {r : RomRow} (hr : r.TestsSelector) {w : Word} (h : r.selects w = true) :
    midOf (decodeWord w) = midOf (decodeWord r.pattern) := by
  obtain ⟨hclass, h0, h8, hE, hF⟩ := hr
  obtain ⟨hw, -⟩ := (r.selects_iff w).mp h
  rw [← hw] at h0 h8 hE hF ⊢
  have hpattern : (fields (w &&& r.mask)).opcodeClass = (fields w).opcodeClass := extractLsb'_and_of_allOnes hclass w
  rw [hpattern] at h0 h8 hE hF
  exact midOf_select_congr hpattern.symm
    (fun hc => (extractLsb'_and_of_allOnes (h0 hc) w).symm) (fun hc => (extractLsb'_and_of_allOnes (h8 hc) w).symm)
    (fun hc => (extractLsb'_and_of_allOnes (hE hc) w).symm) (fun hc => (extractLsb'_and_of_allOnes (hF hc) w).symm)

/-! ## SYS, the one row whose mask leaves the second level to its exclusions (R79) -/

/-- The row of SYS, mid 2. -/
def romSys : RomRow := { romRow 2 "SYS" [.nnn] 0x0000 0xF000 with excludes := [0x00E0, 0x00EE] }

theorem midOf_decodeWord_of_romSys {w : Word} (h : romSys.selects w = true) : midOf (decodeWord w) = romSys.mid := by
  obtain ⟨hw, hexcl⟩ := (romSys.selects_iff w).mp h
  have hclass : (fields w).opcodeClass = 0x0#4 := by
    have hfield : (fields (w &&& romSys.mask)).opcodeClass = (fields w).opcodeClass :=
      extractLsb'_and_of_allOnes (by decide) w
    rw [← hfield, hw]
    decide
  have hcls : w ≠ 0x00E0 := fun hcls => hexcl (by rw [hcls]; decide)
  have hret : w ≠ 0x00EE := fun hret => hexcl (by rw [hret]; decide)
  rw [decodeWord, select_of_class0 hclass,
    selectClass0_of_ne (nnn_ne_of_class0 hclass hcls) (nnn_ne_of_class0 hclass hret)]
  rfl

/-! ## First match (R71) -/

/-- The rows before the fall-through row. -/
def mappedRows : List RomRow := romClass0to7 ++ romClass8 ++ romClass9toD ++ romClassEF

theorem mappedRows_table : ∀ r ∈ mappedRows,
    r = romSys ∨ (r.TestsSelector ∧ midOf (decodeWord r.pattern) = r.mid) := by
  decide

theorem midOf_decodeWord_of_mem_mappedRows {r : RomRow} (hr : r ∈ mappedRows) {w : Word} (h : r.selects w = true) :
    midOf (decodeWord w) = r.mid := by
  obtain rfl | ⟨htests, hmid⟩ := mappedRows_table r hr
  · exact midOf_decodeWord_of_romSys h
  · rw [midOf_decodeWord_of_selects htests h, hmid]

theorem opcodeRom_eq : opcodeRom = mappedRows ++ [romUnmapped] := rfl

theorem mid_of_getElem? {k : Nat} {r : RomRow} (h : opcodeRom[k]? = some r) : r.mid = k := by
  have hmids : opcodeRom.map RomRow.mid = List.range 36 := by decide
  have hk : (List.range 36)[k]? = some r.mid := by rw [← hmids, List.getElem?_map, h, Option.map_some]
  obtain ⟨hlt, hget⟩ := List.getElem?_eq_some_iff.mp hk
  rw [← hget, List.getElem_range]

/-- Every row is selected by the words of its instruction (R72). -/
theorem rowMatch (i : Instr) : Laws.RowMatch.Statement i := by
  cases i
  exacts [Laws.RowMatch.cls, Laws.RowMatch.ret, Laws.RowMatch.sys _, Laws.RowMatch.jp _, Laws.RowMatch.call _,
    Laws.RowMatch.seImm _ _, Laws.RowMatch.sneImm _ _, Laws.RowMatch.sneReg5 _ _ _, Laws.RowMatch.ldImm _ _,
    Laws.RowMatch.addImm _ _, Laws.RowMatch.ldReg _ _, Laws.RowMatch.orReg _ _, Laws.RowMatch.andReg _ _,
    Laws.RowMatch.xorReg _ _, Laws.RowMatch.addReg _ _, Laws.RowMatch.subReg _ _, Laws.RowMatch.shr _ _,
    Laws.RowMatch.subn _ _, Laws.RowMatch.shl _ _, Laws.RowMatch.sneReg9 _ _ _, Laws.RowMatch.ldI _,
    Laws.RowMatch.jpV0 _, Laws.RowMatch.rnd _ _, Laws.RowMatch.drw _ _ _, Laws.RowMatch.skp _, Laws.RowMatch.sknp _,
    Laws.RowMatch.ldXDt _, Laws.RowMatch.ldXK _, Laws.RowMatch.ldDtX _, Laws.RowMatch.ldStX _, Laws.RowMatch.addIX _,
    Laws.RowMatch.ldFX _, Laws.RowMatch.ldBX _, Laws.RowMatch.ldIindX _, Laws.RowMatch.ldXIind _,
    Laws.RowMatch.unmapped _]

theorem exists_row_selects (w : Word) :
    ∃ r, opcodeRom[midOf (decodeWord w)]? = some r ∧ r.selects w = true := by
  have hmatch := rowMatch (decodeWord w) (decodeWord_wf w)
  rw [encode_decodeWord, Option.any_eq_true] at hmatch
  exact hmatch

/-- The rows before the row of the decoded instruction do not match, so the ROM takes that row. -/
theorem getElem?_midOf_decodeWord (w : Word) : opcodeRom[midOf (decodeWord w)]? = some (romSelect w) := by
  obtain ⟨r, hrow, hsel⟩ := exists_row_selects w
  obtain ⟨hlt, hget⟩ := List.getElem?_eq_some_iff.mp hrow
  have hfirst : opcodeRom.find? (·.selects w) = some r := by
    refine List.find?_eq_some_iff_getElem.mpr ⟨hsel, midOf (decodeWord w), hlt, hget, fun j hj => ?_⟩
    have hmapped : opcodeRom[j] ∈ mappedRows := by
      have hlen : opcodeRom.length = mappedRows.length + 1 := rfl
      simp only [opcodeRom_eq]
      rw [List.getElem_append_left (by omega)]
      exact List.getElem_mem _
    have hmid : opcodeRom[j].mid = j := mid_of_getElem? (List.getElem?_eq_getElem _)
    rw [Bool.not_eq_true', Bool.eq_false_iff]
    intro hj'
    have hdec := midOf_decodeWord_of_mem_mappedRows hmapped hj'
    omega
  rw [hrow, romSelect, hfirst, Option.getD_some]

theorem romSelect_mid (w : Word) : (romSelect w).mid = midOf (decodeWord w) :=
  mid_of_getElem? (getElem?_midOf_decodeWord w)

/-! ## The templates (R72, R77) -/

theorem line_vxKk (mid : Nat) (name : String) (pattern mask : Word) (f : Fields) :
    (romRow mid name vxKk pattern mask).line f = lineWith name.toList (regImm8 f.x f.kk) := by
  simp [RomRow.line, romRow, vxKk, sepSlot, Slot.fill, lineWith, regImm8]

theorem line_vxVy (mid : Nat) (name : String) (pattern mask : Word) (f : Fields) :
    (romRow mid name vxVy pattern mask).line f = lineWith name.toList (regReg f.x f.y) := by
  simp [RomRow.line, romRow, vxVy, sepSlot, Slot.fill, lineWith, regReg]

theorem line_vxBracedVy (mid : Nat) (name : String) (pattern mask : Word) (f : Fields) :
    (romRow mid name vxBracedVy pattern mask).line f = lineWith name.toList (regBracedReg f.x f.y) := by
  simp [RomRow.line, romRow, vxBracedVy, Slot.fill, lineWith, regBracedReg, bracedReg]

theorem line_literal_vx (mid : Nat) (name : String) (text : Line) (pattern mask : Word) (f : Fields) :
    (romRow mid name [.lit text, .vx] pattern mask).line f = lineWith name.toList (text ++ regdec f.x) := by
  simp [RomRow.line, romRow, Slot.fill, lineWith]

theorem line_vx_literal (text : Line) (mid : Nat) (name : String) (pattern mask : Word) (f : Fields) :
    (romRow mid name [.vx, .lit (separator ++ text)] pattern mask).line f =
      lineWith name.toList (regLiteral f.x text) := by
  simp [RomRow.line, romRow, Slot.fill, lineWith, regLiteral]

theorem line_vx (mid : Nat) (name : String) (pattern mask : Word) (f : Fields) :
    (romRow mid name [.vx] pattern mask).line f = lineWith name.toList (regdec f.x) := by
  simp [RomRow.line, romRow, Slot.fill, lineWith]

theorem line_vxVy_n (mid : Nat) (name : String) (pattern mask : Word) (f : Fields) :
    (romRow mid name [.vx, sepSlot, .vy, sepSlot, .n] pattern mask).line f =
      lineWith name.toList (regReg f.x f.y ++ separator ++ imm4as8 f.n) := by
  simp [RomRow.line, romRow, sepSlot, Slot.fill, lineWith, regReg]

/-- The row of the instruction, filled with the fields, is the instruction's line. -/
def RowPrints (f : Fields) (i : Instr) : Prop := opcodeRom[midOf i]?.map (·.line f) = some (lineOf i)

theorem rowPrints_selectClass0 (f : Fields) : RowPrints f (selectClass0 f) := by
  unfold selectClass0
  split <;> rfl

theorem rowPrints_selectClass8 (f : Fields) : RowPrints f (selectClass8 f) := by
  unfold selectClass8
  split
  case h_7 | h_9 => exact congrArg some (line_vxBracedVy ..)
  case h_10 => rfl
  all_goals exact congrArg some (line_vxVy ..)

theorem rowPrints_selectClassE (f : Fields) : RowPrints f (selectClassE f) := by
  unfold selectClassE
  split
  case h_3 => rfl
  all_goals exact congrArg some (line_vx ..)

theorem rowPrints_selectClassF (f : Fields) : RowPrints f (selectClassF f) := by
  unfold selectClassF
  split
  case h_1 => exact congrArg some (line_vx_literal "DT".toList ..)
  case h_2 => exact congrArg some (line_vx_literal "K".toList ..)
  case h_9 => exact congrArg some (line_vx_literal "[I]".toList ..)
  case h_10 => rfl
  all_goals exact congrArg some (line_literal_vx ..)

theorem rowPrints_select (f : Fields) : RowPrints f (select f) := by
  unfold select
  split
  case h_1 => exact rowPrints_selectClass0 f
  case h_9 => exact rowPrints_selectClass8 f
  case h_15 => exact rowPrints_selectClassE f
  case h_16 => exact rowPrints_selectClassF f
  case h_4 | h_5 | h_7 | h_8 => exact congrArg some (line_vxKk ..)
  case h_6 | h_10 => exact congrArg some (line_vxVy ..)
  case h_14 => exact congrArg some (line_vxVy_n ..)
  all_goals rfl

theorem romSelect_line (w : Word) : (romSelect w).line (fields w) = render (fields w) := by
  have hprints : opcodeRom[midOf (decodeWord w)]?.map (·.line (fields w)) = some (lineOf (decodeWord w)) :=
    rowPrints_select (fields w)
  rw [getElem?_midOf_decodeWord, Option.map_some, lineOf_decodeWord] at hprints
  exact Option.some.inj hprints

/-- Settles O31: the ROM's row is the row of the decoded instruction, and its line is that of `render`, which is what
the instruction emits. -/
theorem romAndDispatchAgree : Obligations.RomAndDispatchAgree := by
  intro w
  have hline : lineOf (decodeWord w) = (romSelect w).line (fields w) := by rw [romSelect_line, lineOf_decodeWord]
  exact ⟨romSelect_mid w, romSelect_line w, exec_of_lineOf hline⟩

end Sys2Proof.Machine
end

section
/-! The lines of an image (spec 46_pipeline_and_host.md R195, R196): one per word, in order, and their lengths. -/

namespace Sys2Proof.Machine

/-! ## The length of a line (41_render_format.md R115) -/

/-- The name column is six wide, and no operand text is longer than that of DRW. -/
theorem lineWith_length_bounds {name ops : Line} (hname : name.length ≤ 6) (hops : ops.length ≤ 13) :
    2 ≤ (lineWith name ops).length ∧ (lineWith name ops).length ≤ 19 := by
  simp only [lineWith, List.length_append, pad6_length hname]
  omega

theorem regdec_length_le (x : Nibble) : (regdec x).length ≤ 3 := by
  rw [regdec_length]
  split <;> decide

theorem regImm8_length_le (x : Nibble) (kk : Byte) : (regImm8 x kk).length ≤ 13 := by
  rw [regImm8_length]
  split <;> decide

theorem regReg_length_le (x y : Nibble) : (regReg x y).length ≤ 13 :=
  (regReg_length_bounds x y).2.trans (by decide)

theorem regBracedReg_length_le (x y : Nibble) : (regBracedReg x y).length ≤ 13 := by
  rw [regBracedReg_length]
  exact (Nat.add_le_add_right (regReg_length_bounds x y).2 2).trans (by decide)

theorem literalReg_length_le {literal : Line} (h : literal.length ≤ 8) (x : Nibble) :
    (literalReg literal x).length ≤ 13 := by
  have hreg := regdec_length_le x
  simp only [literalReg, separator, List.length_append, List.length_cons, List.length_nil]
  omega

theorem regLiteral_length_le {literal : Line} (h : literal.length ≤ 8) (x : Nibble) :
    (regLiteral x literal).length ≤ 13 := by
  have hreg := regdec_length_le x
  simp only [regLiteral, separator, List.length_append, List.length_cons, List.length_nil]
  omega

theorem lineOf_length_bounds (i : Instr) : 2 ≤ (lineOf i).length ∧ (lineOf i).length ≤ 19 := by
  cases i with
  | cls | ret => decide
  | unmapped w => exact (by decide : 2 ≤ lineUnmapped.length ∧ lineUnmapped.length ≤ 19)
  | sys a | jp a | call a => exact lineWith_length_bounds (by decide) (by simp)
  | ldI a | jpV0 a => exact lineWith_length_bounds (by decide) (by simp [literalImm12, separator])
  | rnd x kk => exact lineWith_length_bounds (by decide) (by simp [separator])
  | seImm x kk | sneImm x kk | ldImm x kk | addImm x kk =>
    exact lineWith_length_bounds (by decide) (regImm8_length_le x kk)
  | drw x y n =>
    obtain ⟨hlo, hhi⟩ := lineDrw_length_bounds x y n
    exact ⟨le_trans (by decide) hlo, hhi⟩
  | skp x | sknp x => exact lineWith_length_bounds (by decide) ((regdec_length_le x).trans (by decide))
  | ldXDt x | ldXK x | ldXIind x =>
    exact lineWith_length_bounds (by decide) (regLiteral_length_le (by decide) x)
  | ldDtX x | ldStX x | addIX x | ldFX x | ldBX x | ldIindX x =>
    exact lineWith_length_bounds (by decide) (literalReg_length_le (by decide) x)
  | shr x y | shl x y => exact lineWith_length_bounds (by decide) (regBracedReg_length_le x y)
  | sneReg5 x y n | sneReg9 x y n => exact lineWith_length_bounds (by decide) (regReg_length_le x y)
  | _ x y => exact lineWith_length_bounds (by decide) (regReg_length_le x y)

theorem render_length_bounds (w : Word) : 2 ≤ (render (fields w)).length ∧ (render (fields w)).length ≤ 19 := by
  rw [← lineOf_decodeWord]
  exact lineOf_length_bounds (decodeWord w)

/-! ## The lines of a byte sequence, word by word -/

theorem linesOf_length (bs : List Byte) : (linesOf bs).length = bs.length / 2 := by
  induction bs using linesOf.induct with
  | case1 hi lo rest ih => simp only [linesOf, List.length_cons, ih]; omega
  | case2 b => simp [linesOf]
  | case3 => rfl

/-- The word at byte offset `2k` gives line `k`, and no other byte reaches it (R196 (b)). -/
theorem linesOf_getElem? {bs : List Byte} {k : Nat} {hi lo : Byte} (hhi : bs[2 * k]? = some hi)
    (hlo : bs[2 * k + 1]? = some lo) : (linesOf bs)[k]? = some (render (fields (hi ++ lo))) := by
  induction bs using linesOf.induct generalizing k with
  | case1 hi' lo' rest ih =>
    cases k with
    | zero =>
      obtain rfl : hi' = hi := Option.some.inj hhi
      obtain rfl : lo' = lo := Option.some.inj hlo
      rfl
    | succ k => exact ih hhi hlo
  | case2 b => cases k <;> cases hlo
  | case3 => cases hhi

theorem linesOf_append {a : List Byte} (h : a.length % 2 = 0) (b : List Byte) :
    linesOf (a ++ b) = linesOf a ++ linesOf b := by
  induction a using linesOf.induct with
  | case1 hi lo rest ih =>
    simp only [List.length_cons] at h
    simp only [List.cons_append, linesOf, ih (by omega)]
  | case2 c => cases h
  | case3 => rfl

theorem exists_word_of_mem_linesOf {bs : List Byte} {line : Line} (h : line ∈ linesOf bs) :
    ∃ w, line = render (fields w) := by
  induction bs using linesOf.induct with
  | case1 hi lo rest ih =>
    obtain rfl | hrest := List.mem_cons.mp h
    · exact ⟨wordOfBytes hi lo, rfl⟩
    · exact ih hrest
  | case2 b => cases h
  | case3 => cases h

/-- One more word of the image is one more line. -/
theorem linesOf_take_add_two {bs : List Byte} {p : Nat} {hi lo : Byte} (heven : p % 2 = 0) (hhi : bs[p]? = some hi)
    (hlo : bs[p + 1]? = some lo) :
    linesOf (bs.take (p + 2)) = linesOf (bs.take p) ++ [render (fields (wordOfBytes hi lo))] := by
  have hlen : p < bs.length := (List.getElem?_eq_some_iff.mp hhi).1
  have htake : bs.take (p + 2) = bs.take p ++ [hi, lo] := by
    rw [List.take_add_one, List.take_add_one, hhi, hlo]
    simp
  rw [htake, linesOf_append (by rw [List.length_take]; omega)]
  rfl

end Sys2Proof.Machine
end

section
/-! Runs (spec 46_pipeline_and_host.md R192 to R198): every step keeps the invariant and comes one step nearer to the
end, so a run over an even image ends in Done with the lines of the image. -/

namespace Sys2Proof

open Sys2Proof.Machine

/-! ## The invariant, phase by phase -/

theorem runInvariant_ready {s : State} (h : s.phase = .ready) :
    RunInvariant s ↔ s.image.wf ∧ s.pos = 0 ∧ s.out = [] ∧ s.err = .none := by
  simp only [RunInvariant, h]

theorem runInvariant_running {s : State} (h : s.phase = .running) :
    RunInvariant s ↔ s.image.wf ∧ s.len % 2 = 0 ∧ s.pos % 2 = 0 ∧ s.pos ≤ s.len ∧ s.err = .none ∧
      s.out = linesOf (s.image.bytes.take s.pos) := by
  simp only [RunInvariant, h]

theorem runInvariant_done {s : State} (h : s.phase = .done) :
    RunInvariant s ↔ s.image.wf ∧ s.len % 2 = 0 ∧ s.pos = s.len ∧ s.err = .none ∧ s.out = linesOf s.image.bytes := by
  simp only [RunInvariant, h]

theorem runInvariant_failed {s : State} (h : s.phase = .failed) :
    RunInvariant s ↔ s.image.wf ∧ s.len % 2 = 1 ∧ s.pos = 0 ∧ s.err = .sizedInput s.len ∧ s.out = [] := by
  simp only [RunInvariant, h]

theorem runInvariant_boot (bs : List Byte) : RunInvariant (boot bs) :=
  (runInvariant_ready rfl).mpr ⟨ofBytes_wf bs, rfl, rfl, rfl⟩

/-! ## Every step keeps it -/

theorem startStep_keeps_invariant {s : State} (hinv : RunInvariant s) (hp : s.phase = .ready) :
    RunInvariant (startStep s) := by
  obtain ⟨hwf, hpos, hout, herr⟩ := (runInvariant_ready hp).mp hinv
  obtain heven | hodd := Nat.mod_two_eq_zero_or_one s.len
  · rw [startStep_of_even heven]
    refine (runInvariant_running rfl).mpr ⟨hwf, heven, ?_, ?_, herr, ?_⟩
    · change s.pos % 2 = 0
      rw [hpos]
    · change s.pos ≤ s.len
      omega
    · change s.out = linesOf (s.image.bytes.take s.pos)
      rw [hout, hpos]
      rfl
  · rw [startStep_of_odd hodd]
    exact (runInvariant_failed rfl).mpr ⟨hwf, hodd, hpos, rfl, hout⟩

theorem wordStep_keeps_invariant {s : State} {w : Word} (hinv : RunInvariant s) (hp : s.phase = .running)
    (hlt : s.pos < s.len) (hw : fetchWord s = some w) :
    RunInvariant (advance (emit (lineOf (decodeWord w)) s)) := by
  obtain ⟨hwf, hlen, hpos, -, herr, hout⟩ := (runInvariant_running hp).mp hinv
  have hin : s.pos + 2 ≤ s.len := hinv.word_inside hp hlt
  obtain ⟨hi, lo, hhi, hlo, hread⟩ := memRead2_of_wf hwf hin
  obtain rfl : w = wordOfBytes hi lo := Option.some.inj (hw.symm.trans hread)
  have hphase : (advance (emit (lineOf (decodeWord (wordOfBytes hi lo))) s)).phase = .running := hp
  refine (runInvariant_running hphase).mpr ⟨hwf, hlen, ?_, hin, herr, ?_⟩
  · rw [advance_pos, emit_pos]
    omega
  · simp only [advance_out, emit_out, advance_image, emit_image, advance_pos, emit_pos]
    rw [linesOf_take_add_two hpos hhi hlo, hout, lineOf_decodeWord]

theorem endStep_keeps_invariant {s : State} (hinv : RunInvariant s) (hp : s.phase = .running) (hend : s.pos = s.len) :
    RunInvariant (endStep s) := by
  obtain ⟨hwf, hlen, -, -, herr, hout⟩ := (runInvariant_running hp).mp hinv
  refine (runInvariant_done rfl).mpr ⟨hwf, hlen, hend, herr, ?_⟩
  have hall : s.image.bytes.length ≤ s.pos := by rw [bytes_length, hend]; rfl
  rw [List.take_of_length_le hall] at hout
  exact hout

theorem step_keeps_invariant {s t : State} (hinv : RunInvariant s) (h : step s = .next t) : RunInvariant t := by
  obtain ⟨hp, rfl⟩ | ⟨hp, hlt, w, hw, rfl⟩ | ⟨hp, hend, rfl⟩ | ⟨-, rfl⟩ := step_next_cases h
  · exact startStep_keeps_invariant hinv hp
  · exact wordStep_keeps_invariant hinv hp hlt hw
  · exact endStep_keeps_invariant hinv hp hend
  · exact hinv

/-! ## Every step of a run counts (R198) -/

theorem terminal_iff (s : State) : terminal s = true ↔ s.phase = .done ∨ s.phase = .failed := by
  simp only [terminal, Bool.or_eq_true, beq_iff_eq]

theorem stepsLeft_of_terminal {s : State} (h : terminal s = true) : stepsLeft s = 0 := by
  obtain hp | hp := (terminal_iff s).mp h <;> simp only [stepsLeft, hp]

theorem stepsLeft_ready {s : State} (h : s.phase = .ready) :
    stepsLeft s = if s.len % 2 = 1 then 1 else s.len / 2 + 2 := by
  simp only [stepsLeft, h]

theorem stepsLeft_running {s : State} (h : s.phase = .running) : stepsLeft s = (s.len - s.pos) / 2 + 1 := by
  simp only [stepsLeft, h]

theorem stepsLeft_startStep {s : State} (hinv : RunInvariant s) (hp : s.phase = .ready) :
    stepsLeft (startStep s) + 1 = stepsLeft s := by
  obtain ⟨-, hpos, -, -⟩ := (runInvariant_ready hp).mp hinv
  rw [stepsLeft_ready hp]
  obtain heven | hodd := Nat.mod_two_eq_zero_or_one s.len
  · rw [startStep_of_even heven, if_neg (by omega), stepsLeft_running rfl]
    change (s.len - s.pos) / 2 + 1 + 1 = s.len / 2 + 2
    rw [hpos]
    rfl
  · rw [startStep_of_odd hodd, if_pos hodd]
    rfl

/-- A run that is not over steps, and the step brings the end one step nearer. -/
theorem step_counts_down {s : State} (hinv : RunInvariant s) (hrun : terminal s = false) :
    ∃ t, step s = .next t ∧ stepsLeft t + 1 = stepsLeft s := by
  cases hp : s.phase with
  | ready => exact ⟨startStep s, step_ready hp, stepsLeft_startStep hinv hp⟩
  | running =>
    obtain ⟨-, -, -, hle⟩ := hinv.image_and_cursor hp
    obtain hlt | hend := Nat.lt_or_eq_of_le hle
    · obtain ⟨w, hw⟩ := hinv.fetch_defined hp hlt
      have hin : s.pos + 2 ≤ s.len := hinv.word_inside hp hlt
      have hphase : (advance (emit (lineOf (decodeWord w)) s)).phase = .running := hp
      refine ⟨_, (step_word hp hlt hw).trans (exec_eq_next _ s), ?_⟩
      rw [stepsLeft_running hp, stepsLeft_running hphase]
      simp only [advance_len, emit_len, advance_pos, emit_pos]
      omega
    · refine ⟨endStep s, step_end hp hend, ?_⟩
      rw [stepsLeft_running hp, hend, Nat.sub_self]
      rfl
  | done => simp [terminal, hp] at hrun
  | failed => simp [terminal, hp] at hrun

/-! ## Runs -/

/-- A run that answers a next state has stopped at none of its steps. -/
theorem exists_step_of_runSteps_succ {k : Nat} {s t : State} (h : runSteps (k + 1) s = .next t) :
    ∃ u, step s = .next u ∧ runSteps k u = .next t := by
  cases hu : step s with
  | next u => exact ⟨u, rfl, (runSteps_succ k hu).symm.trans h⟩
  | fault r | refused r =>
    have hcore := hu
    change Sys2Proof.core.step s = _ at hcore
    simp only [runSteps, Host.Core.run, hcore] at h
    cases h

/-- What every step keeps, every run keeps. -/
theorem runSteps_keeps {P : State → Prop} (hstep : ∀ s t, P s → step s = .next t → P t) {k : Nat} {s t : State}
    (hs : P s) (h : runSteps k s = .next t) : P t := by
  induction k generalizing s with
  | zero =>
    rw [runSteps_zero] at h
    injection h with hst
    exact hst ▸ hs
  | succ k ih =>
    obtain ⟨u, hu, hrest⟩ := exists_step_of_runSteps_succ h
    exact ih (hstep s u hs hu) hrest

theorem exists_run_to_terminal {s : State} (hinv : RunInvariant s) :
    ∃ t, runSteps (stepsLeft s) s = .next t ∧ terminal t = true := by
  induction hn : stepsLeft s generalizing s with
  | zero =>
    refine ⟨s, runSteps_zero s, ?_⟩
    by_contra hrun
    obtain ⟨t, -, hcount⟩ := step_counts_down hinv (Bool.eq_false_iff.mpr hrun)
    omega
  | succ n ih =>
    have hrun : terminal s = false := by
      rw [Bool.eq_false_iff]
      intro hterm
      rw [stepsLeft_of_terminal hterm] at hn
      cases hn
    obtain ⟨u, hu, hcount⟩ := step_counts_down hinv hrun
    obtain ⟨t, ht, hterm⟩ := ih (step_keeps_invariant hinv hu) (by omega)
    exact ⟨t, (runSteps_succ n hu).trans ht, hterm⟩

theorem run_keeps_invariant_and_image {k : Nat} {bs : List Byte} {t : State} (h : runSteps k (boot bs) = .next t) :
    RunInvariant t ∧ t.image = .ofBytes bs :=
  runSteps_keeps (P := fun s => RunInvariant s ∧ s.image = .ofBytes bs)
    (fun _ _ ⟨hinv, himage⟩ hstep => ⟨step_keeps_invariant hinv hstep, (step_keeps_image hstep).trans himage⟩)
    ⟨runInvariant_boot bs, rfl⟩ h

/-- Whatever run reached it, `out` in Done is the lines of the image. -/
theorem out_of_run_done {k : Nat} {bs : List Byte} {t : State} (h : runSteps k (boot bs) = .next t)
    (hdone : t.phase = .done) : t.out = linesOf bs := by
  obtain ⟨hinv, himage⟩ := run_keeps_invariant_and_image h
  obtain ⟨-, -, -, -, hout⟩ := (runInvariant_done hdone).mp hinv
  rw [hout, himage, ofBytes_bytes]

/-- The run over an even image ends, and it does not end in Failed. -/
theorem exists_run_done {bs : List Byte} (heven : bs.length % 2 = 0) :
    ∃ k t, runSteps k (boot bs) = .next t ∧ t.phase = .done := by
  obtain ⟨t, hrun, hterm⟩ := exists_run_to_terminal (runInvariant_boot bs)
  refine ⟨_, t, hrun, ?_⟩
  obtain ⟨hinv, himage⟩ := run_keeps_invariant_and_image hrun
  have hlen : t.len = bs.length := by rw [State.len, himage, ofBytes_size]
  obtain hdone | hfailed := (terminal_iff t).mp hterm
  · exact hdone
  · obtain ⟨-, hodd, -⟩ := (runInvariant_failed hfailed).mp hinv
    omega

/-- Settles O8: the run over the image, and every other successful run, ends with the lines of its own image, and a
line of an image is that of its word. -/
theorem successfulRunRendersEachWord : Obligations.SuccessfulRunRendersEachWord := by
  intro bs heven
  obtain ⟨n, t, hrun, hdone⟩ := exists_run_done heven
  have hout : t.out = linesOf bs := out_of_run_done hrun hdone
  refine ⟨n, t, hrun, hdone, ?_, fun k hi lo hhi hlo => ?_, fun line hline => ?_, fun bs' n' t' _ hrun' hdone' => ?_⟩
  · rw [hout, linesOf_length]
  · rw [hout, linesOf_getElem? hhi hlo]
  · rw [hout] at hline
    obtain ⟨w, rfl⟩ := exists_word_of_mem_linesOf hline
    exact render_length_bounds w
  · have hout' : t'.out = linesOf bs' := out_of_run_done hrun' hdone'
    rw [hout, hout']
    refine ⟨fun hbs => by rw [hbs], fun k hk hhi hlo => ?_⟩
    have hhi' := List.getElem?_eq_getElem (show 2 * k < bs.length by omega)
    have hlo' := List.getElem?_eq_getElem hk
    rw [linesOf_getElem? hhi' hlo', linesOf_getElem? (hhi.symm.trans hhi') (hlo.symm.trans hlo')]

end Sys2Proof
end

section
/-! The row of class 0xC (spec 44_class_9_to_D.md R163, the second quirk). -/

namespace Sys2Proof.Machine

/-- Settles O42: the class selects the row, and the register is one digit whatever it is. -/
theorem rndRowPrintsHexRegister : Obligations.RndRowPrintsHexRegister :=
  fun w _ _ s => ⟨decodeWord_eq_iff rfl w, exec_of_lineOf rfl s, rfl⟩

end Sys2Proof.Machine
end

section
/-! The output path of the command line (spec 46_pipeline_and_host.md R203). -/

namespace Sys2Proof.Machine

theorem outputPath_of_suffix (stem : Line) (a b c : Char) :
    outputPath (stem ++ [a, b, c]) none = some (stem ++ "asm".toList) := by
  simp [outputPath]

/-- Settles O56: what stands before the last three characters is kept, and the three examples are such paths. -/
theorem outputPathReplacesLastThree : Obligations.OutputPathReplacesLastThree :=
  ⟨fun _ _ => rfl, outputPath_of_suffix, outputPath_of_suffix "prog.".toList 'c' 'h' '8',
    outputPath_of_suffix "game.".toList 'r' 'o' 'm', outputPath_of_suffix "no".toList 't' 'e' 's'⟩

end Sys2Proof.Machine
end

section
/-! Unmapped words are no exceptions (spec 60_exceptions.md R212): their line is the placeholder, and the step or the
run goes on as for any other word. -/

namespace Sys2Proof.Machine

/-! ## An image made of words -/

/-- The two bytes of a word, the higher one first, make up the word again (20_memory.md R41). -/
theorem wordOfBytes_extractLsb' (w : Word) : wordOfBytes (w.extractLsb' 8 8) (w.extractLsb' 0 8) = w := by
  have hw := w.isLt
  apply BitVec.eq_of_toNat_eq
  rw [wordOfBytes, toNat_byte_byte]
  simp only [BitVec.extractLsb'_toNat, Nat.shiftRight_eq_div_pow]
  omega

theorem bytesOfWord_length (w : Word) : (bytesOfWord w).length = 2 := rfl

theorem flatMap_bytesOfWord_length (words : List Word) : (words.flatMap bytesOfWord).length = words.length * 2 := by
  simp only [List.length_flatMap, bytesOfWord_length, List.map_const', List.sum_replicate_nat]

theorem linesOf_bytesOfWord_append (w : Word) (bs : List Byte) :
    linesOf (bytesOfWord w ++ bs) = render (fields w) :: linesOf bs := by
  rw [bytesOfWord, List.cons_append, List.singleton_append, linesOf, wordOfBytes_extractLsb']

theorem linesOf_flatMap_bytesOfWord (words : List Word) :
    linesOf (words.flatMap bytesOfWord) = words.map fun w => render (fields w) := by
  induction words with
  | nil => rfl
  | cons w ws ih => rw [List.flatMap_cons, linesOf_bytesOfWord_append, ih, List.map_cons]

/-- The whole run over an image given as words: no length is odd, and every word has its own line (R195). -/
theorem disassemble_flatMap_bytesOfWord (words : List Word) :
    disassemble (words.flatMap bytesOfWord) = .ok (words.map fun w => render (fields w)) := by
  have hlen := flatMap_bytesOfWord_length words
  rw [disassemble, if_neg (by omega), linesOf_flatMap_bytesOfWord]

/-! ## The unmapped word -/

/-- Settles O48: an unmapped word takes the word step of every word, which leaves `err` and the phase alone, and its
line is the placeholder. -/
theorem unmappedWordIsNoException : Obligations.UnmappedWordIsNoException := by
  constructor
  · intro s hi lo hphase hin hhi hlo hunmapped
    rw [wordStepFetchesRendersEmits s hi lo hphase hin hhi hlo, render_of_isUnmapped hunmapped]
    rfl
  · intro words hunmapped
    have hlines : (words.map fun w => render (fields w)) = List.replicate words.length lineUnmapped :=
      List.map_eq_replicate_iff.mpr fun w hw => render_of_isUnmapped (hunmapped w hw)
    rw [disassemble_flatMap_bytesOfWord, hlines]
    rfl

end Sys2Proof.Machine
end

section
/-! The round trips between words and instructions (spec 30_encoding.md R62, R72) and the relations between the fields
of a word (40_field_extractor.md R99). -/

namespace Sys2Proof

open Sys2Proof.Machine

/-! ## Decoding from bytes -/

/-- The bytes of a word decode as the word does, and what follows them is left over (20_memory.md R41). -/
theorem decodeBytes_bytesOfWord_append (w : Word) (rest : List Byte) :
    decodeBytes (bytesOfWord w ++ rest) = .ok (decodeWord w, rest) := by
  rw [bytesOfWord, List.cons_append, List.singleton_append, decodeBytes, wordOfBytes_extractLsb']

/-- Settles O29: the word decodes to the instruction format by format, and its two bytes make up the word. -/
theorem decodeOfEncodeIsInstruction : Obligations.DecodeOfEncodeIsInstruction := by
  intro i hwf
  have hword : decodeWord (encode i) = i := decodeWord_encode hwf
  exact ⟨hword, fun rest => by rw [encodeBytes, decodeBytes_bytesOfWord_append, hword]⟩

/-- Settles O30: each class decodes to rows that `Instr.wf` accepts, and their operands are all of the word. -/
theorem encodeOfDecodeIsWord : Obligations.EncodeOfDecodeIsWord :=
  fun w => ⟨decodeWord_wf w, encode_decodeWord w⟩

/-- Settles O33: the sample words are closed terms, so the decoder computes their instructions. -/
theorem sampleWordsDecode : Obligations.SampleWordsDecode :=
  ⟨rfl, rfl, by decide, by decide, by decide, by decide, by decide, by decide, by decide, by decide, by decide,
    by decide, by decide, by decide⟩

/-! ## The fields of a word (40_field_extractor.md R99) -/

theorem kk_eq_y_append_n (w : Word) : (fields w).kk = (fields w).y ++ (fields w).n := by
  obtain ⟨-, -, hy, hn, hkk, -, -⟩ := fields_toNat w
  apply BitVec.eq_of_toNat_eq
  rw [toNat_nibble_nibble]
  omega

theorem nnn_eq_x_append_kk (w : Word) : (fields w).nnn = (fields w).x ++ (fields w).kk := by
  obtain ⟨-, hx, -, -, hkk, hnnn, -⟩ := fields_toNat w
  apply BitVec.eq_of_toNat_eq
  rw [toNat_nibble_byte]
  omega

theorem nnn_eq_x_append_y_append_n (w : Word) : (fields w).nnn = (fields w).x ++ (fields w).y ++ (fields w).n := by
  rw [nnn_eq_x_append_kk, kk_eq_y_append_n]
  exact BitVec.append_assoc' ..

/-- In class 0x0 a word is told by its 12-bit field. -/
theorem eq_class0_word_iff {w : Word} (hclass : (fields w).opcodeClass = 0x0#4) (a : Imm12) :
    w = 0x0#4 ++ a ↔ (fields w).nnn = a := by
  refine ⟨fun hw => ?_, fun hnnn => ?_⟩
  · obtain ⟨-, hnnn⟩ := fields_class_imm12 0x0#4 a
    rw [hw, hnnn]
  · rw [word_eq_class_imm12 w, hclass, hnnn]

theorem fields_injective : Function.Injective fields :=
  fun v w h => by rw [← fields_word v, h, fields_word]

/-- Settles O28: the fields are slices of one word, and `opcode_class` and `nnn` together are all of it. -/
theorem fieldsDetermineWord : Obligations.FieldsDetermineWord :=
  ⟨fun w => ⟨kk_eq_y_append_n w, nnn_eq_x_append_y_append_n w, nnn_eq_x_append_kk w, word_eq_class_imm12 w,
    fun hclass => ⟨eq_class0_word_iff hclass 0x0E0, eq_class0_word_iff hclass 0x0EE⟩⟩,
    fun _ _ h => fields_injective h⟩

end Sys2Proof
end

section
/-! The word that the host places at the cursor (log entry 7): it is the word of the next step. -/

namespace Sys2Proof.Machine

/-- An opcode-table entry of full width is the word itself. -/
theorem tableWord_toNat (w : Word) : tableWord 16 w.toNat = w := by
  rw [tableWord, Nat.mod_eq_of_lt w.isLt, BitVec.ofNat_toNat, BitVec.setWidth_eq]

theorem decodeTableWord_toNat (w : Word) : decodeTableWord 16 w.toNat = some (decodeWord w) := by
  have hbytes : decodeBytes (bytesOfWord w) = .ok (decodeWord w, []) := decodeBytes_bytesOfWord_append w []
  simp only [decodeTableWord, tableWord_toNat, hbytes]

/-- What stands before the placed word: the image up to `addr`, with zero bytes where it is too short. -/
theorem placeWord_prefix_length (m : Memory) (addr : Nat) :
    (m.bytes.take addr ++ List.replicate (addr - m.size) 0#8).length = addr := by
  rw [List.length_append, List.length_take, bytes_length, List.length_replicate]
  omega

/-- The placed word reads back at its offset. -/
theorem memRead2_placeWord (m : Memory) (addr : Nat) (w : Word) : memRead2 (m.placeWord addr w) addr = some w := by
  have hprefix := placeWord_prefix_length m addr
  unfold Memory.placeWord
  generalize m.bytes.take addr ++ List.replicate (addr - m.size) 0#8 = before at hprefix ⊢
  subst hprefix
  rw [List.append_assoc, bytesOfWord]
  refine (memRead2_eq_concat (hi := w.extractLsb' 8 8) (lo := w.extractLsb' 0 8) ?_ ?_ ?_).trans
    (congrArg some (wordOfBytes_extractLsb' w))
  · simp only [ofBytes_size, List.length_append, List.length_cons]
    omega
  · simp [read_ofBytes]
  · simp [read_ofBytes]

theorem word_inside_of_memRead2 {m : Memory} {a : Nat} {w : Word} (h : memRead2 m a = some w) : a + 2 ≤ m.size := by
  by_contra hout
  rw [memRead2_outside (Nat.lt_of_not_le hout)] at h
  cases h

theorem withFetchWord_eq (s : State) (w : Word) :
    s.withFetchWord 16 w.toNat = { s with image := s.image.placeWord s.pos w, phase := .running } := by
  rw [State.withFetchWord, tableWord_toNat]

/-- Settles O25: the fetch at the cursor reads the placed word, so the cursor is inside the image and the step is the
word step. -/
theorem placedWordRunsNext : Obligations.PlacedWordRunsNext := by
  intro s w
  refine ⟨decodeTableWord_toNat w, ?_⟩
  rw [withFetchWord_eq]
  have hfetch := memRead2_placeWord s.image s.pos w
  have hin := word_inside_of_memRead2 hfetch
  exact step_word rfl (Nat.lt_of_lt_of_le (Nat.lt_add_of_pos_right Nat.two_pos) hin) hfetch

end Sys2Proof.Machine
end

section
/-! Reset (spec 10_state.md R33; 70_reset_and_hazards.md R240, R242) and the steps of the sequencer
(46_pipeline_and_host.md R191 to R194): what each step writes, when it is enabled, and where the model stops. -/

namespace Sys2Proof.Machine

/-! ## Reset and load -/

/-- Settles O1: the reset values are written by definition, and reset writes no other field. -/
theorem resetLeavesIdleSequencer : Obligations.ResetLeavesIdleSequencer :=
  ⟨⟨rfl, rfl, rfl, rfl⟩, fun s =>
    ⟨resetBlock_pos s, resetBlock_out s, resetBlock_err s, resetBlock_phase s, resetBlock_image s⟩⟩

theorem runInvariant_resetBlock {s : State} (h : s.image.wf) : RunInvariant (resetBlock s) :=
  (runInvariant_ready rfl).mpr ⟨h, rfl, rfl, rfl⟩

/-- Settles O2: reset leaves what the invariant says of Ready, and the empty image of `State.reset` is canonical. -/
theorem invariantHoldsAtReset : Obligations.InvariantHoldsAtReset :=
  ⟨(runInvariant_ready rfl).mpr ⟨rfl, rfl, rfl, rfl⟩, fun _ => runInvariant_resetBlock⟩

theorem boot_len (bs : List Byte) : (boot bs).len = bs.length := ofBytes_size bs

/-- Settles O3: the load gives the canonical image of the bytes, and reset leaves it. -/
theorem bootedImageMeetsInvariant : Obligations.BootedImageMeetsInvariant :=
  fun bs => ⟨runInvariant_boot bs, boot_len bs, ofBytes_bytes bs, read_ofBytes bs⟩

/-! ## One step -/

/-- Settles O4: the four cases of a step keep the invariant, the word step because its line is that of the next word. -/
theorem stepKeepsInvariant : Obligations.StepKeepsInvariant :=
  fun _ _ => step_keeps_invariant

/-- In Done and Failed a step answers the same state (log entry 3). -/
theorem step_of_terminal {s : State} (h : terminal s = true) : step s = .next s := by
  obtain hdone | hfailed := (terminal_iff s).mp h
  · exact step_done hdone
  · exact step_failed hfailed

/-- Settles O5: a run that is not over counts down, so it steps, and a run that is over stays. -/
theorem invariantStateAlwaysSteps : Obligations.InvariantStateAlwaysSteps := by
  intro s hinv
  cases hterm : terminal s with
  | false =>
    obtain ⟨t, hstep, -⟩ := step_counts_down hinv hterm
    exact ⟨t, hstep⟩
  | true => exact ⟨s, step_of_terminal hterm⟩

/-- Settles O6: the start, the word and the end step each take one from the count. -/
theorem stepsLeftCountsDown : Obligations.StepsLeftCountsDown :=
  fun _ => step_counts_down

/-- Settles O11: the two bytes are the word that the step fetches, and every decoded instruction is well-formed. -/
theorem stepRunsDecodedInstruction : Obligations.StepRunsDecodedInstruction := by
  intro s hi lo rest i hphase hin hhi hlo hdec
  obtain rfl : decodeWord (wordOfBytes hi lo) = i := congrArg Prod.fst (Except.ok.inj hdec)
  have hfetch : fetchWord s = some (wordOfBytes hi lo) := memRead2_eq_concat hin hhi hlo
  exact ⟨step_word hphase (by omega) hfetch, decodeWord_wf _⟩

/-- Settles O13: the length check fails, and the start step takes the exception. -/
theorem startStepTakesSizedInputError : Obligations.StartStepTakesSizedInputError := by
  intro s hphase hodd
  rw [step_ready hphase, startStep_of_odd hodd]
  rfl

/-- Settles O14: the length check passes, and the start step writes the phase alone. -/
theorem startStepBeginsRun : Obligations.StartStepBeginsRun :=
  fun s hphase heven => by rw [step_ready hphase, startStep_of_even heven]

/-- Settles O15: at the end of the image the step is `endStep`, which writes the phase alone. -/
theorem endStepFinishesRun : Obligations.EndStepFinishesRun :=
  fun _ => step_end

theorem memRead2_of_unlisted {m : Memory} {a : Nat} (h : m.read a = none ∨ m.read (a + 1) = none) :
    memRead2 m a = none := by
  unfold memRead2
  split
  · split
    case h_1 hhi hlo =>
      obtain hnone | hnone := h
      · cases hhi.symm.trans hnone
      · cases hlo.symm.trans hnone
    case h_2 => rfl
  · rfl

theorem step_of_fetch_undefined {s : State} (hphase : s.phase = .running) (hlt : s.pos < s.len)
    (hfetch : fetchWord s = none) : step s = .fault (.readOutsideImage s.pos) := by
  simp only [step_running hphase, runningStep, if_pos hlt, wordStep, hfetch]

/-- Settles O17: before the end the undefined fetch is the fault, and past it neither the word step nor the end step is
enabled. -/
theorem fetchPastEndStops : Obligations.FetchPastEndStops := by
  intro s hphase
  refine ⟨fun hlt hshort => ?_, fun hin hunlisted => ?_, fun hpast => ?_⟩
  · exact step_of_fetch_undefined hphase hlt (memRead2_outside hshort)
  · exact step_of_fetch_undefined hphase (by omega) (memRead2_of_unlisted hunlisted)
  · rw [step_running hphase, runningStep, if_neg (by omega), if_neg (by omega)]

/-- Settles O21: start and end step leave the cursor and the lines, and the word step moves both. -/
theorem cursorMovesOnlyByWordStep : Obligations.CursorMovesOnlyByWordStep := by
  intro s t h
  obtain ⟨-, rfl⟩ | ⟨hp, hlt, w, -, rfl⟩ | ⟨-, -, rfl⟩ | ⟨-, rfl⟩ := step_next_cases h
  · exact .inl ⟨startStep_pos s, startStep_out s⟩
  · exact .inr ⟨hp, hlt, rfl, by simp⟩
  · exact .inl ⟨endStep_pos s, endStep_out s⟩
  · exact .inl ⟨rfl, rfl⟩

/-- Settles O22: no step but the start step writes `err`, and on an even length that one does not either. -/
theorem errorIsWrittenOnlyByStartStep : Obligations.ErrorIsWrittenOnlyByStartStep := by
  intro s t h herr
  obtain ⟨hp, rfl⟩ | ⟨-, -, w, -, rfl⟩ | ⟨-, -, rfl⟩ | ⟨-, rfl⟩ := step_next_cases h
  · obtain heven | hodd := Nat.mod_two_eq_zero_or_one s.len
    · rw [startStep_of_even heven] at herr
      exact absurd rfl herr
    · rw [startStep_of_odd hodd]
      exact ⟨hp, hodd, rfl, rfl⟩
  all_goals exact absurd rfl herr

theorem startStep_phase_cases (s : State) :
    (startStep s).phase = .running ∧ s.len % 2 = 0 ∨ (startStep s).phase = .failed ∧ s.len % 2 = 1 := by
  obtain heven | hodd := Nat.mod_two_eq_zero_or_one s.len
  · exact .inl ⟨by rw [startStep_of_even heven], heven⟩
  · exact .inr ⟨by rw [startStep_of_odd hodd, raiseSizedInputError_phase], hodd⟩

/-- Settles O23: each case of a step has its phase before and after. -/
theorem phaseFollowsRunOrder : Obligations.PhaseFollowsRunOrder := by
  intro s t h
  obtain ⟨hp, rfl⟩ | ⟨hp, hlt, w, -, rfl⟩ | ⟨hp, hend, rfl⟩ | ⟨hterm, rfl⟩ := step_next_cases h
  · exact .inl ⟨hp, startStep_phase_cases s⟩
  · exact .inr (.inl ⟨hp, .inl ⟨hp, hlt⟩⟩)
  · exact .inr (.inl ⟨hp, .inr ⟨rfl, hend⟩⟩)
  · exact .inr (.inr (hterm.imp (fun hp => ⟨hp, hp⟩) fun hp => ⟨hp, hp⟩))

end Sys2Proof.Machine
end

section
/-! The run as one function (spec 46_pipeline_and_host.md R194, R195, R198): in which state the run over an image ends,
and after how many steps. -/

namespace Sys2Proof.Machine

theorem runSteps_add {s t : State} {n : Nat} (h : runSteps n s = .next t) (k : Nat) :
    runSteps (n + k) s = runSteps k t := by
  induction n generalizing s with
  | zero =>
    rw [runSteps_zero] at h
    injection h with hst
    rw [hst, Nat.zero_add]
  | succ n ih =>
    obtain ⟨u, hu, hrest⟩ := exists_step_of_runSteps_succ h
    rw [Nat.add_right_comm, runSteps_succ _ hu, ih hrest]

theorem runSteps_of_terminal {s : State} (h : terminal s = true) (k : Nat) : runSteps k s = .next s := by
  induction k with
  | zero => exact runSteps_zero s
  | succ k ih => rw [runSteps_succ k (step_of_terminal h), ih]

/-- A run that is over stays as it is, however many steps are counted after its end. -/
theorem runSteps_add_of_terminal {s t : State} {n : Nat} (h : runSteps n s = .next t) (hterm : terminal t = true)
    (k : Nat) : runSteps (n + k) s = .next t := by
  rw [runSteps_add h, runSteps_of_terminal hterm]

/-- Settles O16: each step of a run that is over answers the same state, so all of them do. -/
theorem terminalPhasesKeepState : Obligations.TerminalPhasesKeepState :=
  fun s h => runSteps_of_terminal ((terminal_iff s).mpr h)

/-- The run over an odd image ends in its first step, by the length check. -/
theorem runSteps_boot_of_odd {bs : List Byte} (hodd : bs.length % 2 = 1) (k : Nat) :
    runSteps (1 + k) (boot bs) = .next { boot bs with err := .sizedInput bs.length, phase := .failed } := by
  refine runSteps_add_of_terminal ?_ rfl k
  have hlen := boot_len bs
  have hstep := startStepTakesSizedInputError (boot bs) rfl (by rwa [hlen])
  rw [runSteps_succ 0 hstep, runSteps_zero, hlen]

/-- The invariant leaves one state in Done for an image. -/
theorem eq_of_runInvariant_done {bs : List Byte} {t : State} (hinv : RunInvariant t) (himage : t.image = .ofBytes bs)
    (hdone : t.phase = .done) : t = { boot bs with pos := bs.length, out := linesOf bs, phase := .done } := by
  obtain ⟨-, -, hpos, herr, hout⟩ := (runInvariant_done hdone).mp hinv
  obtain ⟨image, pos, out, err, phase⟩ := t
  subst himage herr hdone
  rw [ofBytes_bytes] at hout
  subst hout
  rw [State.len, ofBytes_size] at hpos
  subst hpos
  rfl

/-- Two runs from one state that are both over have ended in the same state. -/
theorem eq_of_terminal_runs {m n : Nat} {s t t' : State} (h : runSteps m s = .next t) (hterm : terminal t = true)
    (h' : runSteps n s = .next t') (hterm' : terminal t' = true) : t = t' := by
  have hlong := runSteps_add_of_terminal h hterm n
  rw [Nat.add_comm, runSteps_add_of_terminal h' hterm' m] at hlong
  injection hlong with heq
  exact heq.symm

/-- The run over an even image takes one step for the length check, one for each word and one for the end (R198). -/
theorem runSteps_boot_of_even {bs : List Byte} (heven : bs.length % 2 = 0) (k : Nat) :
    runSteps (bs.length / 2 + 2 + k) (boot bs) =
      .next { boot bs with pos := bs.length, out := linesOf bs, phase := .done } := by
  refine runSteps_add_of_terminal ?_ rfl k
  have hsteps : stepsLeft (boot bs) = bs.length / 2 + 2 := by
    rw [stepsLeft_ready rfl, boot_len, if_neg (by omega)]
  obtain ⟨t, hrun, hterm⟩ := exists_run_to_terminal (runInvariant_boot bs)
  obtain ⟨n, u, hrun', hdone⟩ := exists_run_done heven
  obtain rfl := eq_of_terminal_runs hrun hterm hrun' ((terminal_iff u).mpr (.inl hdone))
  obtain ⟨hinv, himage⟩ := run_keeps_invariant_and_image hrun
  rw [← hsteps, hrun, ← eq_of_runInvariant_done hinv himage hdone]

theorem disassemble_of_odd {bs : List Byte} (h : bs.length % 2 = 1) : disassemble bs = .sizedInputError bs.length :=
  if_pos h

theorem disassemble_of_even {bs : List Byte} (h : bs.length % 2 = 0) : disassemble bs = .ok (linesOf bs) :=
  if_neg (by omega)

/-- Settles O7: by the parity of the length, the run ends in Done with the lines or in Failed with the length. -/
theorem runEqualsDisassemble : Obligations.RunEqualsDisassemble := by
  intro bs k
  obtain heven | hodd := Nat.mod_two_eq_zero_or_one bs.length
  · rw [disassemble_of_even heven]
    exact runSteps_boot_of_even heven k
  · rw [disassemble_of_odd hodd]
    exact runSteps_boot_of_odd hodd k

/-- Settles O9: the run over an odd image ends in its first step, with a state that holds the length and no byte. -/
theorem oddImageBytesAreNeverObserved : Obligations.OddImageBytesAreNeverObserved := by
  intro bs bs' k hodd hlen
  have hrun := runSteps_boot_of_odd hodd k
  have hrun' := runSteps_boot_of_odd (bs := bs') (by rwa [hlen]) k
  rw [hlen] at hrun'
  rw [Nat.add_comm]
  exact ⟨_, _, hrun, hrun', rfl, rfl, rfl, rfl, rfl, rfl, rfl, rfl⟩

/-- Settles O10: word by word of the first image, which ends at a word. -/
theorem linesOfJoinedImages : Obligations.LinesOfJoinedImages :=
  fun _ b h => linesOf_append h b

end Sys2Proof.Machine
end

section
/-! The characters of a line (spec 41_render_format.md R112, R115; 30_encoding.md R77): names, literals and numerals have
no space, and a line joins them. -/

namespace Sys2Proof.Machine

/-! ## Texts of line characters that begin and end with one that is no space -/

/-- The text is not empty, has listed characters only, and has no space at either end. -/
structure IsTrimmedText (t : Line) : Prop where
  ne_nil : t ≠ []
  chars : ∀ c ∈ t, isLineChar c = true
  head : t.head? ≠ some ' '
  last : t.getLast? ≠ some ' '

/-- Whatever listed characters stand between two such texts, the whole is one. -/
theorem IsTrimmedText.join {a b mid : Line} (ha : IsTrimmedText a) (hmid : ∀ c ∈ mid, isLineChar c = true)
    (hb : IsTrimmedText b) : IsTrimmedText (a ++ mid ++ b) where
  ne_nil := List.append_ne_nil_of_right_ne_nil _ hb.ne_nil
  chars := by
    simp only [List.forall_mem_append]
    exact ⟨⟨ha.chars, hmid⟩, hb.chars⟩
  head := by
    rw [List.append_assoc, List.head?_append_of_ne_nil _ ha.ne_nil]
    exact ha.head
  last := by
    rw [List.getLast?_append_of_ne_nil _ hb.ne_nil]
    exact hb.last

/-- A text that is not empty, of listed characters without a space: what the names, literals and numerals are. -/
def isSolidText (t : Line) : Bool := !t.isEmpty && t.all fun c => isLineChar c && c != ' '

theorem isTrimmedText_of_isSolidText {t : Line} (h : isSolidText t = true) : IsTrimmedText t := by
  simp only [isSolidText, Bool.and_eq_true, Bool.not_eq_true', List.isEmpty_eq_false_iff, List.all_eq_true,
    bne_iff_ne] at h
  obtain ⟨hne, hchars⟩ := h
  have hspace : ' ' ∉ t := fun hmem => (hchars ' ' hmem).2 rfl
  exact ⟨hne, fun c hc => (hchars c hc).1, fun hhead => hspace (List.mem_of_head? hhead),
    fun hlast => hspace (List.mem_of_getLast? hlast)⟩

/-! ## The operand texts -/

theorem isLineChar_separator : ∀ c ∈ separator, isLineChar c = true :=
  List.all_eq_true.mp (rfl : separator.all isLineChar = true)

theorem isLineChar_hexdigit (d : Nibble) : isLineChar (hexdigit d) = true := by revert d; decide

/-- A register and an immediate are one character, `V` or `#`, and digits (R104 to R107). -/
theorem isTrimmedText_cons_digits {c : Char} (hc : isLineChar c = true) (hspace : c ≠ ' ') (ds : List Nibble) :
    IsTrimmedText (c :: ds.map hexdigit) := by
  apply isTrimmedText_of_isSolidText
  simp [isSolidText, hc, hspace, isLineChar_hexdigit, hexdigit_ne_space]

theorem isTrimmedText_regdec (x : Nibble) : IsTrimmedText (regdec x) := by
  obtain ⟨-, hshape⟩ | ⟨-, hshape⟩ := regdec_cases x
  · rw [hshape]
    exact isTrimmedText_cons_digits rfl (by decide) [x]
  · rw [hshape]
    exact isTrimmedText_cons_digits rfl (by decide) [1, x - 10]

theorem isTrimmedText_reghex (x : Nibble) : IsTrimmedText (reghex x) := isTrimmedText_cons_digits rfl (by decide) [x]

theorem isTrimmedText_imm8 (v : Byte) : IsTrimmedText (imm8 v) :=
  isTrimmedText_cons_digits rfl (by decide) [v.extractLsb' 4 4, v.extractLsb' 0 4]

theorem isTrimmedText_imm12 (v : Imm12) : IsTrimmedText (imm12 v) :=
  isTrimmedText_cons_digits rfl (by decide) [0, v.extractLsb' 8 4, v.extractLsb' 4 4, v.extractLsb' 0 4]

theorem isTrimmedText_regReg (x y : Nibble) : IsTrimmedText (regReg x y) :=
  (isTrimmedText_regdec x).join isLineChar_separator (isTrimmedText_regdec y)

theorem isTrimmedText_regImm8 (x : Nibble) (kk : Byte) : IsTrimmedText (regImm8 x kk) :=
  (isTrimmedText_regdec x).join isLineChar_separator (isTrimmedText_imm8 kk)

/-- The second register stands inside, between the first and the closing brace. -/
theorem isTrimmedText_regBracedReg (x y : Nibble) : IsTrimmedText (regBracedReg x y) := by
  have hmid : ∀ c ∈ openBrace :: separator ++ regdec y, isLineChar c = true :=
    List.forall_mem_append.mpr ⟨List.forall_mem_cons.mpr ⟨rfl, isLineChar_separator⟩, (isTrimmedText_regdec y).chars⟩
  have hline := (isTrimmedText_regdec x).join hmid (isTrimmedText_of_isSolidText (t := [closeBrace]) rfl)
  rwa [List.append_assoc] at hline

theorem isTrimmedText_literalReg {literal : Line} (h : isSolidText literal = true) (x : Nibble) :
    IsTrimmedText (literalReg literal x) :=
  (isTrimmedText_of_isSolidText h).join isLineChar_separator (isTrimmedText_regdec x)

theorem isTrimmedText_regLiteral {literal : Line} (h : isSolidText literal = true) (x : Nibble) :
    IsTrimmedText (regLiteral x literal) :=
  (isTrimmedText_regdec x).join isLineChar_separator (isTrimmedText_of_isSolidText h)

theorem isTrimmedText_literalImm12 {literal : Line} (h : isSolidText literal = true) (a : Imm12) :
    IsTrimmedText (literalImm12 literal a) :=
  (isTrimmedText_of_isSolidText h).join isLineChar_separator (isTrimmedText_imm12 a)

/-! ## The lines -/

/-- The padding of the name column stands between the name and the operands (R101). -/
theorem isTrimmedText_lineWith {name ops : Line} (hname : isSolidText name = true) (hops : IsTrimmedText ops) :
    IsTrimmedText (lineWith name ops) := by
  refine (isTrimmedText_of_isSolidText hname).join (fun c hc => ?_) hops
  rw [List.eq_of_mem_replicate hc]
  rfl

theorem isTrimmedText_lineOf (i : Instr) : IsTrimmedText (lineOf i) := by
  cases i with
  | cls => exact isTrimmedText_of_isSolidText (t := lineCls) rfl
  | ret => exact isTrimmedText_of_isSolidText (t := lineRet) rfl
  | unmapped w => exact isTrimmedText_of_isSolidText (t := lineUnmapped) rfl
  | sys a | jp a | call a => exact isTrimmedText_lineWith rfl (isTrimmedText_imm12 a)
  | ldI a | jpV0 a => exact isTrimmedText_lineWith rfl (isTrimmedText_literalImm12 rfl a)
  | rnd x kk =>
    exact isTrimmedText_lineWith rfl ((isTrimmedText_reghex x).join isLineChar_separator (isTrimmedText_imm8 kk))
  | seImm x kk | sneImm x kk | ldImm x kk | addImm x kk =>
    exact isTrimmedText_lineWith rfl (isTrimmedText_regImm8 x kk)
  | drw x y n =>
    exact isTrimmedText_lineWith rfl
      ((isTrimmedText_regReg x y).join isLineChar_separator (isTrimmedText_imm8 (n.zeroExtend 8)))
  | skp x | sknp x => exact isTrimmedText_lineWith rfl (isTrimmedText_regdec x)
  | ldXDt x | ldXK x | ldXIind x => exact isTrimmedText_lineWith rfl (isTrimmedText_regLiteral rfl x)
  | ldDtX x | ldStX x | addIX x | ldFX x | ldBX x | ldIindX x =>
    exact isTrimmedText_lineWith rfl (isTrimmedText_literalReg rfl x)
  | shr x y | shl x y => exact isTrimmedText_lineWith rfl (isTrimmedText_regBracedReg x y)
  | sneReg5 x y n | sneReg9 x y n => exact isTrimmedText_lineWith rfl (isTrimmedText_regReg x y)
  | _ x y => exact isTrimmedText_lineWith rfl (isTrimmedText_regReg x y)

theorem isTrimmedText_render (w : Word) : IsTrimmedText (render (fields w)) := by
  rw [← lineOf_decodeWord]
  exact isTrimmedText_lineOf (decodeWord w)

/-- Settles O53: name and operand text are trimmed texts of listed characters, and the lengths are those of R115. -/
theorem linesUseListedCharacters : Obligations.LinesUseListedCharacters := by
  intro w
  obtain ⟨hlo, hhi⟩ := render_length_bounds w
  obtain ⟨-, hchars, hhead, hlast⟩ := isTrimmedText_render w
  exact ⟨hlo, hhi, hchars, hhead, hlast⟩

end Sys2Proof.Machine
end

section
/-! The ports of U2 (spec 41_render_format.md R100): the ROM's row, the length and the codes of the line fit them. -/

namespace Sys2Proof.Machine

/-- The characters that `isLineChar` accepts, in one list. -/
def listedChars : List Char :=
  " #,?[]".toList ++ [openBrace, closeBrace] ++ "0123456789".toList ++ "ABCDEFGHIJKLMNOPQRSTUVWXYZ".toList

theorem mem_listedChars {c : Char} (h : isLineChar c = true) : c ∈ listedChars := by
  unfold isLineChar at h
  unfold listedChars
  rw [Bool.or_eq_true, Bool.or_eq_true, Bool.or_eq_true] at h
  rw [List.mem_append, List.mem_append, List.mem_append]
  exact h.imp (Or.imp (Or.imp List.mem_of_elem_eq_true List.mem_of_elem_eq_true) List.mem_of_elem_eq_true)
    List.mem_of_elem_eq_true

/-- The listed characters have 7-bit codes (R112). -/
theorem toNat_lt_128_of_isLineChar {c : Char} (h : isLineChar c = true) : c.toNat < 128 := by
  have hcodes : (listedChars.all fun c => c.toNat < 128) = true := rfl
  exact of_decide_eq_true (List.all_eq_true.mp hcodes c (mem_listedChars h))

theorem charCode_toNat {c : Char} (h : isLineChar c = true) : (charCode c).toNat = c.toNat := by
  have hcode := toNat_lt_128_of_isLineChar h
  rw [charCode, BitVec.toNat_ofNat, Nat.mod_eq_of_lt (by omega)]

/-- The row of a word is one of the 36 rows of the ROM. -/
theorem midOf_decodeWord_lt (w : Word) : midOf (decodeWord w) < 36 := by
  obtain ⟨hlt, -⟩ := List.getElem?_eq_some_iff.mp (getElem?_midOf_decodeWord w)
  exact hlt

theorem lineCharAt_of_getElem? {w : Word} {k : Nat} {c : Char} (h : (render (fields w))[k]? = some c) :
    lineCharAt w k = charCode c := by
  rw [lineCharAt, h, Option.map_some, Option.getD_some]

/-- Settles O54: row, length and codes are all below the range of their ports, so no port loses a bit of them. -/
theorem mapperPortsCarryLine : Obligations.MapperPortsCarryLine := by
  intro w
  have hmid := midOf_decodeWord_lt w
  obtain ⟨-, hlen⟩ := render_length_bounds w
  refine ⟨?_, ?_, ?_, fun k hk c hc => ?_⟩
  · rw [romSelect_mid, mapperPorts, BitVec.toNat_ofNat, Nat.mod_eq_of_lt (by omega)]
  · rw [romSelect_mid]
    omega
  · rw [mapperPorts, BitVec.toNat_ofNat, Nat.mod_eq_of_lt (by omega)]
  · have hchar : isLineChar c = true := (isTrimmedText_render w).chars c (List.mem_of_getElem? hc)
    rw [← charCode_toNat hchar, ← lineCharAt_of_getElem? hc]
    simp only [mapperPorts, Vector.getElem_ofFn]

end Sys2Proof.Machine
end

section
/-! The host around the block (spec 46_pipeline_and_host.md R201, R202, R204): the text artifact, and what is collected
from a run. -/

namespace Sys2Proof.Machine

/-! ## The text artifact -/

@[simp] theorem textOf_nil : textOf [] = [] := rfl

theorem textOf_cons (line : Line) (out : List Line) : textOf (line :: out) = line ++ newline :: textOf out := by
  simp only [textOf, List.flatMap_cons, List.append_assoc, List.singleton_append]

/-- The first newline ends the first line. -/
theorem append_newline_inj {a b s t : Line} (ha : newline ∉ a) (hb : newline ∉ b)
    (h : a ++ newline :: s = b ++ newline :: t) : a = b ∧ s = t := by
  induction a generalizing b with
  | nil =>
    cases b with
    | nil => exact ⟨rfl, (List.cons.inj h).2⟩
    | cons c b => exact absurd (List.mem_cons.mpr (.inl (List.cons.inj h).1)) hb
  | cons c a ih =>
    cases b with
    | nil => exact absurd (List.mem_cons.mpr (.inl (List.cons.inj h).1.symm)) ha
    | cons d b =>
      obtain ⟨rfl, htail⟩ := List.cons.inj h
      obtain ⟨rfl, hrest⟩ := ih (List.not_mem_of_not_mem_cons ha) (List.not_mem_of_not_mem_cons hb) htail
      exact ⟨rfl, hrest⟩

theorem count_newline_textOf {out : List Line} (h : ∀ line ∈ out, newline ∉ line) :
    (textOf out).count newline = out.length := by
  induction out with
  | nil => rfl
  | cons line out ih =>
    obtain ⟨hline, hout⟩ := List.forall_mem_cons.mp h
    rw [textOf_cons, List.count_append, List.count_cons_self, ih hout, List.count_eq_zero.mpr hline, Nat.zero_add,
      List.length_cons]

/-- Whatever the last line is, its newline is the last character. -/
theorem getLast?_textOf {out : List Line} (h : out ≠ []) : (textOf out).getLast? = some newline := by
  obtain rfl | ⟨front, line, rfl⟩ := List.eq_nil_or_concat' out
  · exact absurd rfl h
  · rw [textOf, List.flatMap_append, List.flatMap_singleton, ← List.append_assoc, List.getLast?_concat]

theorem textOf_injOn {out out' : List Line} (h : ∀ line ∈ out, newline ∉ line) (h' : ∀ line ∈ out', newline ∉ line)
    (heq : textOf out = textOf out') : out = out' := by
  induction out generalizing out' with
  | nil =>
    cases out' with
    | nil => rfl
    | cons line' out' => simp [textOf_cons] at heq
  | cons line out ih =>
    cases out' with
    | nil => simp [textOf_cons] at heq
    | cons line' out' =>
      obtain ⟨hline, hout⟩ := List.forall_mem_cons.mp h
      obtain ⟨hline', hout'⟩ := List.forall_mem_cons.mp h'
      rw [textOf_cons, textOf_cons] at heq
      obtain ⟨rfl, hrest⟩ := append_newline_inj hline hline' heq
      rw [ih hout hout' hrest]

theorem newline_notMem_render (w : Word) : newline ∉ render (fields w) := by
  intro hmem
  have hlisted : isLineChar newline = true := (isTrimmedText_render w).chars newline hmem
  have hunlisted : isLineChar newline = false := rfl
  rw [hunlisted] at hlisted
  cases hlisted

/-- Settles O55: the newline is no listed character, so each one ends a line. -/
theorem textArtifactSplitsBack : Obligations.TextArtifactSplitsBack :=
  ⟨newline_notMem_render, textOf_nil, fun _ h => ⟨count_newline_textOf h, getLast?_textOf,
    fun _ h' => textOf_injOn h h'⟩⟩

/-! ## Collection -/

theorem terminal_of_collect {s : State} (h : collect s ≠ none) : terminal s = true := by
  rw [terminal_iff]
  unfold collect at h
  split at h
  case h_1 hdone => exact .inl hdone
  case h_2 hfailed _ => exact .inr hfailed
  all_goals exact absurd rfl h

theorem hostRun_of_odd {bs : List Byte} (h : bs.length % 2 = 1) (writable : Bool) :
    hostRun (some bs) writable = .sizedInputError bs.length := by
  simp only [hostRun, disassemble_of_odd h]

theorem hostRun_of_even {bs : List Byte} (h : bs.length % 2 = 0) (writable : Bool) :
    hostRun (some bs) writable = if writable then .wrote (textOf (linesOf bs)) else .ioError := by
  simp only [hostRun, disassemble_of_even h]

/-- The state in which the run over an image ends is collected as what `hostRun` reports. -/
theorem exists_run_collected (bs : List Byte) :
    ∃ t, runSteps (bs.length / 2 + 2) (boot bs) = .next t ∧ collect t = some (hostRun (some bs) true) := by
  obtain heven | hodd := Nat.mod_two_eq_zero_or_one bs.length
  · refine ⟨_, runSteps_boot_of_even heven 0, ?_⟩
    rw [hostRun_of_even heven]
    rfl
  · have hcount : bs.length / 2 + 2 = 1 + (bs.length / 2 + 1) := by omega
    refine ⟨_, hcount ▸ runSteps_boot_of_odd hodd _, ?_⟩
    rw [hostRun_of_odd hodd]
    rfl

/-- Settles O57: the run's final state is collected as the report, and a write error is met on an even length only. -/
theorem hostCollectsRunResult : Obligations.HostCollectsRunResult := by
  refine ⟨fun _ => terminal_of_collect, exists_run_collected, fun _ => rfl, fun bs => ?_⟩
  obtain heven | hodd := Nat.mod_two_eq_zero_or_one bs.length
  · rw [hostRun_of_even heven, if_neg Bool.false_ne_true, if_neg (by omega)]
  · rw [hostRun_of_odd hodd, if_pos hodd]

end Sys2Proof.Machine
end
